-- ==== Sys2Proof/Word.lean ====
section
/-! DEFINITION. The bit vectors of the spec (00_scope R12): `UInt8` is `Byte`, `UInt16` is `Half`. -/

namespace Sys2Proof

/-- `UInt8` of R12: one byte of a buffer. -/
abbrev Byte := BitVec 8

/-- `UInt16` of R12: a 16-bit displacement, direct address or immediate. -/
abbrev Half := BitVec 16

end Sys2Proof
end

