-- ==== Sys2Proof/Config.lean ====
section
/-! DEFINITION. The types of the block's tables (30_encoding R80, R90, R92) and the parameters an implementation
fixes (00_scope R10). The contents of the tables are in Sys2Proof/Machine/Roms.lean. The spec leaves no result
value open, so there is no free value here. -/

namespace Sys2Proof

/-- The 16 register names of R20, in the enumeration order of R91. In the block a name is an opaque constant (R21). -/
inductive RegName where
  | al | cl | dl | bl | ah | ch | dh | bh
  | ax | cx | dx | bx | sp | bp | si | di
  deriving DecidableEq, Repr

/-- The mnemonics a ROM entry may carry. `mov` and `add` are those of the default image; the source calls the set
"extensible" (R10, R80), which `other` gives (log 11). -/
inductive Mnemonic where
  | mov
  | add
  | other (name : List Char)
  deriving DecidableEq, Repr

/-- The operand roles of R80. -/
inductive Role where
  | reg
  | rm
  | imm
  deriving DecidableEq, Repr

/-- Where a format keeps its 3-bit REG field (R76, R80). -/
inductive RegSource where
  | modrm
  | byte0 (shift : Nat)
  deriving DecidableEq, Repr

/-- A format entry, field for field as R80 lists it. Bit positions are naturals, so that check WF8 of R263 has
something to reject. -/
structure FormatEntry where
  opcode : Byte
  mask   : Byte
  mnem   : Mnemonic
  roles  : Role × Role
  d      : Option Nat
  w      : Option Nat
  s      : Option Nat
  reg    : Option RegSource
  imm    : Bool
  modrm  : Bool
  ext    : Option (BitVec 3)
  deriving DecidableEq, Repr

/-- The register-name ROM of R90: one row of eight names per width bit. -/
structure RegRom where
  byteNames : Vector RegName 8
  wordNames : Vector RegName 8
  deriving DecidableEq, Repr

/-- The effective-address ROM of R92: the base registers of each RM code. -/
structure EaRom where
  bases : Vector (List RegName) 8
  deriving DecidableEq, Repr

/-- The parameters of R10 that stay fixed for one block. `ROM_IMAGE` is not here: the host presents it (R34). -/
structure Params where
  /-- MNEMONICS. -/
  mnemonics  : List Mnemonic
  /-- OFFSET_BITS, an OPEN parameter (R10, R26; log 10). -/
  offsetBits : Nat
  deriving DecidableEq, Repr

end Sys2Proof
end

