-- ==== Sys2Proof/Machine/Roms.lean ====
section
/-! DEFINITION. The contents of the three ROMs: the default format image (30_encoding R82), the register-name ROM (R90)
and the effective-address ROM (R92). Bit patterns that no example of the source fixes are general knowledge of the
8086, as the spec says of them (log 15). -/

namespace Sys2Proof

/-- The five entries of the default image, by the names R82 gives them. -/
inductive Row where
  | movRmReg | movImmReg | movImmRm | addRmReg | addImmRm
  deriving DecidableEq, Repr

namespace Machine

/-- The table of R82, line by line. -/
def rowEntry : Row → FormatEntry
  | .movRmReg  => { opcode := 0x88#8, mask := 0xFC#8, mnem := .mov, roles := (.rm, .reg), d := some 1, w := some 0, s := none,
                    reg := some .modrm, imm := false, modrm := true, ext := none }
  | .movImmReg => { opcode := 0xB0#8, mask := 0xF0#8, mnem := .mov, roles := (.reg, .imm), d := none, w := some 3, s := none,
                    reg := some (.byte0 0), imm := true, modrm := false, ext := none }
  | .movImmRm  => { opcode := 0xC6#8, mask := 0xFE#8, mnem := .mov, roles := (.rm, .imm), d := none, w := some 0, s := none,
                    reg := none, imm := true, modrm := true, ext := some 0#3 }
  | .addRmReg  => { opcode := 0x00#8, mask := 0xFC#8, mnem := .add, roles := (.rm, .reg), d := some 1, w := some 0, s := none,
                    reg := some .modrm, imm := false, modrm := true, ext := none }
  | .addImmRm  => { opcode := 0x80#8, mask := 0xFC#8, mnem := .add, roles := (.rm, .imm), d := none, w := some 0, s := some 1,
                    reg := none, imm := true, modrm := true, ext := some 0#3 }

/-- Does the entry declare the role (R80)? -/
def hasRole (F : FormatEntry) (r : Role) : Bool := F.roles.1 == r || F.roles.2 == r

/-- The rows in ROM order (R82). -/
def rowOrder : List Row := [.movRmReg, .movImmReg, .movImmRm, .addRmReg, .addImmRm]

/-- The default ROM image (R82). -/
def defaultImage : List FormatEntry := rowOrder.map rowEntry

/-- The default row an entry is, if it is one of them. -/
def rowOfEntry (F : FormatEntry) : Option Row := rowOrder.find? fun r => rowEntry r == F

/-- `byte0 & mask == opcode` (R81). -/
def entryMatches (F : FormatEntry) (byte0 : Byte) : Bool := (byte0 &&& F.mask) == F.opcode

/-- The lowest-index entry that matches, with its index (R81, R122). `k` is the index of the list's first entry. -/
def matchEntry (k : Nat) : List FormatEntry → Byte → Option (Nat × FormatEntry)
  | [], _ => none
  | F :: rest, byte0 => if entryMatches F byte0 then some (k, F) else matchEntry (k + 1) rest byte0

/-- The register-name ROM (R90). -/
def defaultRegRom : RegRom where
  byteNames := #v[.al, .cl, .dl, .bl, .ah, .ch, .dh, .bh]
  wordNames := #v[.ax, .cx, .dx, .bx, .sp, .bp, .si, .di]

/-- The effective-address ROM (R92). -/
def defaultEaRom : EaRom where
  bases := #v[[.bx, .si], [.bx, .di], [.bp, .si], [.bp, .di], [.si], [.di], [.bp], [.bx]]

/-- `RegName(w, code)` (00_scope R16). -/
def regName (rom : RegRom) (w : Bool) (code : BitVec 3) : RegName :=
  if w then rom.wordNames.get code.toFin else rom.byteNames.get code.toFin

/-- `EA(rm)` (00_scope R16). -/
def eaBases (rom : EaRom) (rm : BitVec 3) : List RegName := rom.bases.get rm.toFin

end Machine
end Sys2Proof
end

