-- ==== Sys2Proof/Syntax.lean ====
section
/-! DEFINITION. The instructions: one constructor per row of spec/opcode_table.json, with the fields that the
layouts RR, IR and IM of 30_encoding R77 to R79 give the row. -/

namespace Sys2Proof

/-- What MOD, RM and the displacement bytes of an instruction say (R72, R94). -/
inductive RmField where
  /-- MOD = 11: RM names a register. -/
  | register (rm : BitVec 3)
  /-- MOD = 00 and RM = 110: a 16-bit direct address follows. -/
  | direct (addr : Half)
  /-- MOD = 00 and RM ≠ 110: no displacement. -/
  | based (rm : BitVec 3)
  /-- MOD = 01: an 8-bit displacement follows. -/
  | based8 (rm : BitVec 3) (disp : Byte)
  /-- MOD = 10: a 16-bit displacement follows. -/
  | based16 (rm : BitVec 3) (disp : Half)
  deriving DecidableEq, Repr

/-- The immediate bytes of an instruction: one, or two little-endian (R97). -/
inductive ImmField where
  | imm8 (b : Byte)
  | imm16 (v : Half)
  deriving DecidableEq, Repr

/-- The five formats of the default image (R82), one per row of the opcode table. -/
inductive Instr where
  /-- MOV register/memory to or from register, `100010dw` (R150). -/
  | movRmReg (d w : Bool) (reg : BitVec 3) (rm : RmField)
  /-- MOV immediate to register, `1011wrrr` (R151). -/
  | movImmReg (w : Bool) (reg : BitVec 3) (imm : ImmField)
  /-- MOV immediate to register/memory, `1100011w`, ModRM REG = 000 (R152). -/
  | movImmRm (w : Bool) (rm : RmField) (imm : ImmField)
  /-- ADD register/memory with register, `000000dw` (R170). -/
  | addRmReg (d w : Bool) (reg : BitVec 3) (rm : RmField)
  /-- ADD immediate to register/memory, `100000sw`, ModRM REG = 000 (R171). -/
  | addImmRm (s w : Bool) (rm : RmField) (imm : ImmField)
  deriving DecidableEq, Repr

end Sys2Proof
end

