-- ==== Sys2Proof/Machine/Bits.lean ====
section
/-! DEFINITION. The bit-field extractor (30_encoding R73), the extension and interpretation primitives (00_scope R13)
and the byte order of 16-bit values (20_memory R52). -/

namespace Sys2Proof.Machine

/-- The extractor of R73: the `width` bits of `byte` from bit `shift` up. -/
def extract (byte : Byte) (shift width : Nat) : BitVec width :=
  BitVec.ofNat width (byte.toNat >>> shift)

/-- A one-bit field (R11: `v[i]` is bit `i`). -/
def bit (byte : Byte) (i : Nat) : Bool :=
  extract byte i 1 == 1#1

/-- `sext_16` of R13. -/
def sext16 (v : Byte) : Half :=
  (if bit v 7 then 0xFF#8 else 0x00#8) ++ v

/-- `signed_8` of R13: "value − 256 when the raw byte's top bit is set". -/
def signed8 (v : Byte) : Int :=
  if v.getLsbD 7 then (v.toNat : Int) - 256 else v.toNat

/-- `signed_16` of R13. -/
def signed16 (v : Half) : Int :=
  if v.getLsbD 15 then (v.toNat : Int) - 65536 else v.toNat

/-- A 16-bit value from two bytes in buffer order (R52: the byte at the lower offset is the less significant). -/
def littleEndian (lo hi : Byte) : Half :=
  hi ++ lo

/-- The less significant byte of a 16-bit value, the one at the lower offset (R52). -/
def lowByte (v : Half) : Byte := v.extractLsb' 0 8

/-- The more significant byte of a 16-bit value (R52). -/
def highByte (v : Half) : Byte := v.extractLsb' 8 8

end Sys2Proof.Machine
end

