-- ==== Sys2Proof/Machine/Flags.lean ====
section
/-! DEFINITION. The three first-byte flags D, W and S of an instruction (30_encoding R71, R74; 00_scope R18) and what
each selects. The block itself has no status flags and writes none (10_state R28), so there is no flag computation. -/

namespace Sys2Proof.Machine

/-- Step 2 of the decode (40_decode_engine R123): the flag at the bit position the format gives it; an absent
extractor gives 0 (R74). -/
def latchFlag (pos : Option Nat) (byte0 : Byte) : Bool :=
  match pos with
  | some p => bit byte0 p
  | none   => false

/-- The immediate is one byte when W = 0, or when W = 1 and S = 1; else two (R97). -/
def immIsByte (w s : Bool) : Bool := !w || s

/-- The roles that step 5 may swap (R128). -/
def swappable (roles : Role × Role) : Bool :=
  roles == (.rm, .reg) || roles == (.reg, .rm)

/-- Step 5, direction normalisation (R104, R128): the operands in role order become destination and source. The format
has a direction bit `dPos`, and `d` is its value. -/
def direction {α : Type} (dPos : Option Nat) (roles : Role × Role) (d : Bool) (opA opB : α) : α × α :=
  if dPos.isSome && swappable roles && d then (opB, opA) else (opA, opB)

end Sys2Proof.Machine
end

