-- ==== Sys2Proof/WellFormed.lean ====
section
/-! DEFINITION. Which terms of `Instr` are instructions: those that some bytes encode. -/

namespace Sys2Proof

/-- MOD = 00 with RM = 110 is the direct address, never a base register (R94). -/
def RmField.wellFormed : RmField → Bool
  | .register _  => true
  | .direct _    => true
  | .based rm    => rm != 0b110#3
  | .based8 _ _  => true
  | .based16 _ _ => true

/-- The immediate is as long as W and S say (R97). -/
def ImmField.fits (w s : Bool) : ImmField → Bool
  | .imm8 _  => Machine.immIsByte w s
  | .imm16 _ => !Machine.immIsByte w s

def Instr.wellFormed : Instr → Bool
  | .movRmReg _ _ _ rm  => rm.wellFormed
  | .movImmReg w _ imm  => imm.fits w false
  | .movImmRm w rm imm  => rm.wellFormed && imm.fits w false
  | .addRmReg _ _ _ rm  => rm.wellFormed
  | .addImmRm s w rm imm => rm.wellFormed && imm.fits w s

end Sys2Proof
end

