-- ==== Sys2Proof/Decode.lean ====
section
/-! DEFINITION. The decoder and the encoder of the five formats of the default image, from the layouts RR, IR and IM
(30_encoding R77 to R79) and the opcode table. The decoder is total on any bytes and rejects by name. For any other ROM
image the general algorithm is in Sys2Proof/Machine/Engine.lean. -/

namespace Sys2Proof

/-- Why bytes are no instruction of the default image (R231, R232). `required` is counted from the first byte. -/
inductive Reject where
  | unknownOpcode
  | truncated (required : Nat)
  deriving DecidableEq, Repr

/-- `dispLen` of R83: the displacement bytes that follow the ModRM byte. -/
def RmField.dispLen : RmField → Nat
  | .register _  => 0
  | .direct _    => 2
  | .based _     => 0
  | .based8 _ _  => 1
  | .based16 _ _ => 2

/-- `immLen` of R83. -/
def ImmField.len : ImmField → Nat
  | .imm8 _  => 1
  | .imm16 _ => 2

namespace Decode

open Machine

/-- One byte off the front; `taken` bytes of the instruction came before it (R124 with n = 1). -/
def takeByte (taken : Nat) : List Byte → Except Reject (Byte × List Byte)
  | b :: rest => .ok (b, rest)
  | []        => .error (.truncated (taken + 1))

/-- Two bytes off the front, little-endian (R52, R124 with n = 2); the check comes before any byte is taken. -/
def takeHalf (taken : Nat) : List Byte → Except Reject (Half × List Byte)
  | lo :: hi :: rest => .ok (littleEndian lo hi, rest)
  | _                => .error (.truncated (taken + 2))

/-- MOD, RM and the displacement (R72, R94); the two bytes before it are the first byte and `modrm`. -/
def takeRm (modrm : Byte) (rest : List Byte) : Except Reject (RmField × List Byte) :=
  match extract modrm 6 2 with
  | 0b00#2 =>
    if extract modrm 0 3 = 0b110#3 then
      match takeHalf 2 rest with
      | .ok (v, rest) => .ok (.direct v, rest)
      | .error e      => .error e
    else .ok (.based (extract modrm 0 3), rest)
  | 0b01#2 =>
    match takeByte 2 rest with
    | .ok (b, rest) => .ok (.based8 (extract modrm 0 3) b, rest)
    | .error e      => .error e
  | 0b10#2 =>
    match takeHalf 2 rest with
    | .ok (v, rest) => .ok (.based16 (extract modrm 0 3) v, rest)
    | .error e      => .error e
  | _ => .ok (.register (extract modrm 0 3), rest)

/-- The immediate (R97), after `taken` bytes. -/
def takeImm (taken : Nat) (w s : Bool) (rest : List Byte) : Except Reject (ImmField × List Byte) :=
  if immIsByte w s then
    match takeByte taken rest with
    | .ok (b, rest) => .ok (.imm8 b, rest)
    | .error e      => .error e
  else
    match takeHalf taken rest with
    | .ok (v, rest) => .ok (.imm16 v, rest)
    | .error e      => .error e

/-- Layout RR after the first byte (R77): REG and the RM field. -/
def takeRr (rest : List Byte) : Except Reject ((BitVec 3 × RmField) × List Byte) :=
  match takeByte 1 rest with
  | .error e => .error e
  | .ok (modrm, rest) =>
    match takeRm modrm rest with
    | .error e => .error e
    | .ok (rm, rest) => .ok ((extract modrm 3 3, rm), rest)

/-- Layout IM after the first byte (R79): the opcode extension is checked after the ModRM byte and before any
displacement or immediate byte (R86, R126). -/
def takeIm (w s : Bool) (rest : List Byte) : Except Reject ((RmField × ImmField) × List Byte) :=
  match takeByte 1 rest with
  | .error e => .error e
  | .ok (modrm, rest) =>
    if extract modrm 3 3 ≠ 0#3 then .error .unknownOpcode
    else
      match takeRm modrm rest with
      | .error e => .error e
      | .ok (rm, rest) =>
        match takeImm (2 + rm.dispLen) w s rest with
        | .error e => .error e
        | .ok (imm, rest) => .ok ((rm, imm), rest)

/-- The bytes after the first byte `byte0`, read as the row's format. -/
def decodeRow (row : Row) (byte0 : Byte) (rest : List Byte) : Except Reject (Instr × List Byte) :=
  match row with
  | .movRmReg =>
    match takeRr rest with
    | .ok ((reg, rm), rest) => .ok (.movRmReg (bit byte0 1) (bit byte0 0) reg rm, rest)
    | .error e => .error e
  | .movImmReg =>
    match takeImm 1 (bit byte0 3) false rest with
    | .ok (imm, rest) => .ok (.movImmReg (bit byte0 3) (extract byte0 0 3) imm, rest)
    | .error e => .error e
  | .movImmRm =>
    match takeIm (bit byte0 0) false rest with
    | .ok ((rm, imm), rest) => .ok (.movImmRm (bit byte0 0) rm imm, rest)
    | .error e => .error e
  | .addRmReg =>
    match takeRr rest with
    | .ok ((reg, rm), rest) => .ok (.addRmReg (bit byte0 1) (bit byte0 0) reg rm, rest)
    | .error e => .error e
  | .addImmRm =>
    match takeIm (bit byte0 0) (bit byte0 1) rest with
    | .ok ((rm, imm), rest) => .ok (.addImmRm (bit byte0 1) (bit byte0 0) rm imm, rest)
    | .error e => .error e

/-- The row of the default image that a first byte selects (R81, R85). -/
def rowOfByte (byte0 : Byte) : Option Row := rowOrder.find? fun r => entryMatches (rowEntry r) byte0

/-- The decoder: the first instruction of `bytes` and the bytes after it. -/
def decode (bytes : List Byte) : Except Reject (Instr × List Byte) :=
  match takeByte 0 bytes with
  | .error e => .error e
  | .ok (byte0, rest) =>
    match rowOfByte byte0 with
    | none     => .error .unknownOpcode
    | some row => decodeRow row byte0 rest

end Decode

namespace Encode

open Machine

/-- The ModRM byte (R72). -/
def modrmByte (mod : BitVec 2) (reg rm : BitVec 3) : Byte := mod ++ (reg ++ rm)

/-- A 16-bit value as two bytes in buffer order (R52). -/
def halfBytes (v : Half) : List Byte := [lowByte v, highByte v]

/-- The ModRM byte with `reg` in its REG field, and the displacement bytes (R72, R94). -/
def rmBytes (reg : BitVec 3) : RmField → List Byte
  | .register rm     => [modrmByte 0b11#2 reg rm]
  | .direct addr     => modrmByte 0b00#2 reg 0b110#3 :: halfBytes addr
  | .based rm        => [modrmByte 0b00#2 reg rm]
  | .based8 rm disp  => [modrmByte 0b01#2 reg rm, disp]
  | .based16 rm disp => modrmByte 0b10#2 reg rm :: halfBytes disp

def immBytes : ImmField → List Byte
  | .imm8 b  => [b]
  | .imm16 v => halfBytes v

/-- The bytes of an instruction, from the layouts of R77 to R79. -/
def encode : Instr → List Byte
  | .movRmReg d w reg rm   => (0b100010#6 ++ (BitVec.ofBool d ++ BitVec.ofBool w) : Byte) :: rmBytes reg rm
  | .movImmReg w reg imm   => (0b1011#4 ++ (BitVec.ofBool w ++ reg) : Byte) :: immBytes imm
  | .movImmRm w rm imm     => (0b1100011#7 ++ BitVec.ofBool w : Byte) :: (rmBytes 0#3 rm ++ immBytes imm)
  | .addRmReg d w reg rm   => (0b000000#6 ++ (BitVec.ofBool d ++ BitVec.ofBool w) : Byte) :: rmBytes reg rm
  | .addImmRm s w rm imm   => (0b100000#6 ++ (BitVec.ofBool s ++ BitVec.ofBool w) : Byte) :: (rmBytes 0#3 rm ++ immBytes imm)

end Encode

/-- `length(k, byte0, modrm)` of R83 for the five formats of the default image. -/
def Instr.length : Instr → Nat
  | .movRmReg _ _ _ rm    => 2 + rm.dispLen
  | .movImmReg _ _ imm    => 1 + imm.len
  | .movImmRm _ rm imm    => 2 + rm.dispLen + imm.len
  | .addRmReg _ _ _ rm    => 2 + rm.dispLen
  | .addImmRm _ _ rm imm  => 2 + rm.dispLen + imm.len

/-- The bytes, in buffer order, of an instruction of `nbits` bits whose word is `w` (bit 0 the least significant bit of
the first byte), followed by bytes of zeros up to the longest instruction, six bytes (R70). -/
def wordBytes (nbits w : Nat) : List Byte :=
  (List.range 6).map fun i => BitVec.ofNat 8 ((w % 2 ^ nbits) >>> (8 * i))

/-- The instruction the decoder reads from a word of the opcode table. -/
def decodeTableWord (nbits w : Nat) : Option Instr :=
  match Decode.decode (wordBytes nbits w) with
  | .ok (i, _) => some i
  | .error _   => none

end Sys2Proof
end

