-- ==== Sys2Proof/Machine/State.lean ====
section
/-! DEFINITION. The state of the block (10_state R22, R24, R27, R33, R37), the values on its ports (R30 to R34), the
reasons a step can stop, and the state after reset. Plain data throughout. -/

namespace Sys2Proof.Machine

/-- A memory in canonical form: addresses strictly rising, no cell equal to what an unlisted address reads as
(Sys2Proof/Machine/Memory.lean; log 8). -/
abbrev Memory := List Host.Cell

/-- An input buffer (R14, R31, R50): one byte at each offset below `len`. -/
structure Buffer where
  len   : Nat
  cells : Memory
  deriving DecidableEq, Repr

/-- The width of a displacement: 8 or 16 bits, "No other widths occur" (30_encoding R93). -/
inductive DispWidth where
  | w8
  | w16
  deriving DecidableEq, Repr

/-- A displacement (R93). -/
structure Disp where
  value : Int
  width : DispWidth
  deriving DecidableEq, Repr

/-- An address expression (R93). It is never evaluated (20_memory R59). -/
inductive AddrExpr where
  | direct (addr : Half)
  | based (bases : List RegName) (disp : Option Disp)
  deriving DecidableEq, Repr

/-- An operand value (00_scope R17). -/
inductive Operand where
  | reg (r : RegName)
  | imm (v : Int)
  | mem (ea : AddrExpr)
  deriving DecidableEq, Repr

/-- The decoded instruction `Instr{mnem, op0, op1, w}` (10_state R32): destination first. -/
structure Decoded where
  mnem : Mnemonic
  op0  : Operand
  op1  : Operand
  w    : Bool
  deriving DecidableEq, Repr

/-- The two codes a decode response can carry (10_state R30, 60_exceptions R230). -/
inductive DecodeErrorCode where
  | unknownOpcode
  | truncatedInstruction
  deriving DecidableEq, Repr

/-- The fields of an error response (R30). -/
structure DecodeError where
  code           : DecodeErrorCode
  offset         : Nat
  bytesAvailable : Nat
  bytesRequired  : Nat
  deriving DecidableEq, Repr

/-- The response of a decode (R30). -/
inductive Response where
  | ok (instr : Decoded) (consumed : Nat)
  | err (e : DecodeError)
  deriving DecidableEq, Repr

/-- The two codes of an initialisation failure (R230, R234). -/
inductive InitErrorCode where
  | invalidOperandRole
  | invalidFormatEntry
  deriving DecidableEq, Repr

/-- What a failed initialisation records: the code and the index of the first bad entry (R230). -/
structure InitError where
  code  : InitErrorCode
  index : Nat
  deriving DecidableEq, Repr

/-- The initialisation port: nothing presented yet, the image passed, or the error reported (R34, R265). -/
inductive InitPort where
  | pending
  | passed
  | failed (e : InitError)
  deriving DecidableEq, Repr

/-- The latches of one decode (R24, R27): `cur` is the cursor, and a latch that not every format or moment has is an
Option. -/
structure Latches where
  start : Nat
  cur   : Nat
  byte0 : Byte
  k     : Nat
  d     : Bool
  w     : Bool
  s     : Bool
  modrm : Option Byte
  mod   : Option (BitVec 2)
  reg   : Option (BitVec 3)
  rm    : Option (BitVec 3)
  opA   : Option Operand
  opB   : Option Operand
  deriving DecidableEq, Repr

/-- An element of a stream's output (R33). -/
inductive Element where
  | line (offset : Nat) (instr : Decoded) (consumed : Nat)
  | error (e : DecodeError)
  deriving DecidableEq, Repr

/-- The `state` of a stream context (R33). -/
inductive StreamPhase where
  | running
  | endedAtEnd
  | endedByError
  deriving DecidableEq, Repr

/-- A stream context with the elements its port has emitted, oldest first (R33). -/
structure StreamCtx where
  buf    : Buffer
  offset : Nat
  phase  : StreamPhase
  out    : List Element
  /-- The host has stopped taking elements from it for good (R196; log 24). -/
  abandoned : Bool
  deriving DecidableEq, Repr

/-- What the host does to the block (R19, R31, R33, R34, R57, R196). -/
inductive HostInput where
  /-- Present a ROM image (R34). -/
  | initialise (image : List FormatEntry)
  /-- Request one decode (R31). -/
  | decodeRequest (buf : Buffer) (offset : Nat)
  /-- Request a stream (R190). -/
  | streamRequest (buf : Buffer)
  /-- Take the coming elements from stream `k` (R196, R198). -/
  | resume (k : Nat)
  /-- Take one element from the stream selected: one step of the sequencer (R191, R196). -/
  | take
  /-- Stop taking elements from stream `k` (R196). -/
  | abandon (k : Nat)
  /-- Change a byte of the buffer of stream `k` (R57, R63). -/
  | changeByte (k i : Nat) (b : Byte)
  deriving DecidableEq, Repr

structure State where
  params    : Params
  /-- FMT_ROM (R22). -/
  fmtRom    : List FormatEntry
  /-- REG_ROM (R22). -/
  regRom    : RegRom
  /-- EA_ROM (R22). -/
  eaRom     : EaRom
  /-- R22, R34. -/
  ready     : Bool
  /-- R34. -/
  initPort  : InitPort
  /-- The cursor and latches of a decode in progress (R24, R27); a decode is one atomic step (R9; log 14). -/
  latches   : Option Latches
  /-- The stream contexts (R33), in the order they were opened (log 5). -/
  streams   : List StreamCtx
  /-- Which stream the sequencer serves (log 5). -/
  turn      : Nat
  /-- The host's pending actions, oldest first (log 4). -/
  inputs    : List HostInput
  /-- The responses of the decode port, oldest first (R30). -/
  responses : List Response
  deriving DecidableEq, Repr

/-- Why the machine stops. Each constructor stands for a request the spec gives no step ("stuck"), or for an action on
a thing that does not exist; all are safe: nothing is proved of what comes after. -/
inductive Fault where
  /-- Raised by a decode or stream request while `ready` is false: it is not admitted (R120, R190; log 7). Safe. -/
  | requestBeforeReady
  /-- Raised by a second initialisation: it is not admitted (R262; log 7). Safe. -/
  | secondInitialisation
  /-- Raised by an instruction's meaning where no decode is in progress; `step` never comes there (log 3). Safe. -/
  | noDecodeInProgress
  /-- Raised by `resume`, `take`, `abandon` and `changeByte` for a stream that was never opened (log 4). Safe. -/
  | noSuchStream
  /-- Raised by `changeByte` for an offset that is not below `len`: the buffer has no such byte (R58; log 4). Safe. -/
  | noSuchOffset
  deriving DecidableEq, Repr

/-- Runs outside the model's domain. -/
inductive Refusal where
  /-- Raised by `exec` for an instruction with no meaning yet. Safe. -/
  | notModelled (mnemonic : String)
  /-- Raised by `changeByte` on the buffer of a running stream: a host duty broken (R57; log 9). Safe. -/
  | bufferChangedDuringStream
  /-- Raised by a request whose buffer has `len >= 2^OFFSET_BITS`: a host duty broken (R10, R26; log 10). Safe. -/
  | bufferTooLong
  /-- Raised by `initialise` with no entry: N_FORMATS is at least 1 (R10; log 13). Safe. -/
  | emptyRomImage
  /-- Raised by `resume` and `take` on a stream that ended by an error: it is never resumed (R238; log 17). Safe. -/
  | resumeAfterError
  /-- Raised by `resume` and `take` on a stream that the host has abandoned (R196; log 24). Safe. -/
  | takeAfterAbandon
  deriving DecidableEq, Repr

/-- What one step or one meaning answers. -/
abbrev Result := Host.Outcome State Fault Refusal

/-- Before initialisation (R260): `ready` is false and FMT_ROM is not loaded (log 12). -/
def State.beforeInit : State where
  params    := { mnemonics := [.mov, .add], offsetBits := 64 }
  fmtRom    := []
  regRom    := defaultRegRom
  eaRom     := defaultEaRom
  ready     := false
  initPort  := .pending
  latches   := none
  streams   := []
  turn      := 0
  inputs    := []
  responses := []

/-- The values after initialisation with the default image (R37), "initialisation, which is the block's reset"
(70_reset_and_hazards; log 1). -/
def State.reset : State :=
  { State.beforeInit with fmtRom := defaultImage, ready := true, initPort := .passed }

end Sys2Proof.Machine
end

