-- ==== Sys2Proof/Machine/Operands.lean ====
section
/-! DEFINITION. The operand resolver and the effective-address resolver (30_encoding R92 to R102): the operand values
the engine emits. -/

namespace Sys2Proof.Machine

/-- A register operand (R101). -/
def regOperand (regs : RegRom) (w : Bool) (code : BitVec 3) : Operand := .reg (regName regs w code)

/-- An 8-bit displacement (R95). -/
def disp8 (b : Byte) : Disp := { value := signed8 b, width := .w8 }

/-- A 16-bit displacement (R96). -/
def disp16 (v : Half) : Disp := { value := signed16 v, width := .w16 }

/-- The operand of role RM (R94, R101). -/
def rmOperand (regs : RegRom) (ea : EaRom) (w : Bool) : RmField → Operand
  | .register rm     => regOperand regs w rm
  | .direct addr     => .mem (.direct addr)
  | .based rm        => .mem (.based (eaBases ea rm) none)
  | .based8 rm disp  => .mem (.based (eaBases ea rm) (some (disp8 disp)))
  | .based16 rm disp => .mem (.based (eaBases ea rm) (some (disp16 disp)))

/-- The immediate operand (R98, R99): two's complement at the operand width; one byte for a 16-bit operand is
sign-extended. -/
def immOperand (w : Bool) : ImmField → Operand
  | .imm8 b  => if w then .imm (signed16 (sext16 b)) else .imm (signed8 b)
  | .imm16 v => .imm (signed16 v)

end Sys2Proof.Machine
end

