-- ==== Sys2Proof/Machine/Memory.lean ====
section
/-! DEFINITION. The named operations over an input buffer (20_memory R50 to R58, 00_scope R14). The engine only reads;
a write is the host's (R57, R63). -/

namespace Sys2Proof.Machine

/-- What an address with no cell reads as. A buffer gives every offset below `len` a byte, so a cell left out is the
byte 0 (log 8). -/
def Memory.unlisted : Byte := 0#8

def Memory.read : Memory → Nat → Byte
  | [], _ => Memory.unlisted
  | (a, b) :: m, i => if a = i then b else Memory.read m i

/-- Put `b` at address `i`, keeping the canonical form. -/
def Memory.write : Memory → Nat → Byte → Memory
  | [], i, b => if b = Memory.unlisted then [] else [(i, b)]
  | (a, v) :: m, i, b =>
    if i < a then
      if b = Memory.unlisted then (a, v) :: m else (i, b) :: (a, v) :: m
    else if i = a then
      if b = Memory.unlisted then m else (i, b) :: m
    else (a, v) :: Memory.write m i b

/-- The canonical form, for the addresses from `lo` up. -/
def Memory.wfFrom (lo : Nat) : Memory → Bool
  | [] => true
  | (a, b) :: m => decide (lo ≤ a) && b != Memory.unlisted && Memory.wfFrom (a + 1) m

/-- The canonical form: addresses strictly rising, no cell equal to what an unlisted address reads as. -/
def Memory.wf (m : Memory) : Bool := Memory.wfFrom 0 m

/-- The cells of a byte sequence laid out from address `at` up. -/
def Memory.ofBytes (addr : Nat) : List Byte → Memory
  | [] => []
  | b :: rest => if b = Memory.unlisted then Memory.ofBytes (addr + 1) rest else (addr, b) :: Memory.ofBytes (addr + 1) rest

/-- A buffer is well formed when its cells are canonical and lie below `len`. -/
def Buffer.wf (buf : Buffer) : Bool := Memory.wf buf.cells && buf.cells.all fun c => decide (c.1 < buf.len)

/-- The byte at offset `i` (R58: every offset below `len` is readable). -/
def Buffer.byte (buf : Buffer) (i : Nat) : Byte := Memory.read buf.cells i

/-- `MemRead(i, 1)` of R14, defined only for `i < len`. -/
def Buffer.memRead (buf : Buffer) (i : Nat) : Option Byte := if i < buf.len then some (buf.byte i) else none

/-- A byte sequence as a buffer (R31). -/
def Buffer.ofBytes (bytes : List Byte) : Buffer := { len := bytes.length, cells := Memory.ofBytes 0 bytes }

/-- At most `n` bytes from offset `off` on, stopping at the end of the buffer. -/
def Buffer.window (buf : Buffer) (off : Nat) : Nat → List Byte
  | 0 => []
  | n + 1 => if off < buf.len then buf.byte off :: Buffer.window buf (off + 1) n else []

/-- The host's change of one byte of its buffer (R57, R63). -/
def Buffer.write (buf : Buffer) (i : Nat) (b : Byte) : Buffer := { buf with cells := Memory.write buf.cells i b }

end Sys2Proof.Machine
end

