-- ==== Sys2Proof/Machine/Ops.lean ====
section
/-! DEFINITION. The shared operations: which decode is in progress, how its response reaches the requester
(10_state R30, R33; 43_stream_driver R191), how an error is taken, and admission (40_decode_engine R120). -/

namespace Sys2Proof.Machine

/-- Who asked for a decode: the decode port (R31) or the sequencer for the stream it serves (R191). -/
inductive Client where
  | port
  | stream
  deriving DecidableEq, Repr

/-- A decode in progress: `decode(buf, len, offset)` for `client`. -/
structure Transaction where
  buf    : Buffer
  offset : Nat
  client : Client
  deriving DecidableEq, Repr

/-- The stream the sequencer serves, if it was opened. -/
def State.current (s : State) : Option StreamCtx := s.streams[s.turn]?

/-- The decode the block is to perform next: the host's request if one is first in line; or, when the host takes an
element, the sequencer's request for the selected stream, if it runs and has not reached the end of its buffer
(R191, R196). -/
def State.transaction (s : State) : Option Transaction :=
  match s.inputs with
  | .decodeRequest buf offset :: _ => some { buf := buf, offset := offset, client := .port }
  | .take :: _ =>
    match s.current with
    | some c =>
      if c.abandoned = false ∧ c.phase = .running ∧ c.offset ≠ c.buf.len then some { buf := c.buf, offset := c.offset, client := .stream } else none
    | none => none
  | _ => none

/-- What the sequencer does with the response of a decode (R191, R192): a success is a `Line` and moves the offset; an
error is the last element and ends the stream. -/
def StreamCtx.emit (c : StreamCtx) : Response → StreamCtx
  | .ok instr consumed => { c with offset := c.offset + consumed, out := c.out ++ [.line c.offset instr consumed] }
  | .err e             => { c with phase := .endedByError, out := c.out ++ [.error e] }

/-- The end of a stream at the end of its buffer: no element is emitted (R191). -/
def StreamCtx.finish (c : StreamCtx) : StreamCtx := { c with phase := .endedAtEnd }

/-- A new stream (R190). -/
def StreamCtx.start (buf : Buffer) : StreamCtx := { buf := buf, offset := 0, phase := .running, out := [], abandoned := false }

/-- The host's oldest action is done. -/
def State.popInput (s : State) : State := { s with inputs := s.inputs.tail }

/-- Change the stream the sequencer serves. -/
def State.updateCurrent (s : State) (f : StreamCtx → StreamCtx) : State := { s with streams := s.streams.modify s.turn f }

/-- Hand a response to the requester (R30, R191). The latches and the cursor of the decode are discarded (R27, R134). -/
def State.deliver (s : State) (r : Response) : Client → State
  | .port   => { s with inputs := s.inputs.tail, responses := s.responses ++ [r], latches := none }
  | .stream => { s.updateCurrent (·.emit r) with inputs := s.inputs.tail, latches := none }

/-- The one way a decode ends: its response goes to whoever asked (R30: exactly one response). No decode is served
before `ready` (R120). -/
def respond (s : State) (r : Response) : Result :=
  match s.transaction with
  | none => .fault .noDecodeInProgress
  | some t => if s.ready then .next (s.deliver r t.client) else .fault .requestBeforeReady

/-- `return Ok(instr, consumed)` (R15, R129). -/
def respondOk (s : State) (instr : Decoded) (consumed : Nat) : Result := respond s (.ok instr consumed)

/-- Going on with a stream: refused after its error (R238; log 17) and after the host abandoned it (R196; log 24). -/
def StreamCtx.whenTakable (c : StreamCtx) (k : Result) : Result :=
  if c.phase = .endedByError then .refused .resumeAfterError
  else if c.abandoned then .refused .takeAfterAbandon
  else k

/-- TAKING AN ERROR, which stands in the place of trap entry (R237): no state is saved, there is no vector, mode change
or mask; the error is the response, and a stream ends by it. There is no return from it (R238): the host makes a new
request, and `resume` refuses the ended stream. -/
def respondError (s : State) (e : DecodeError) : Result := respond s (.err e)

/-- `raise UnknownOpcode(offset)`: the two byte counts are 0 (R15, R30). -/
def unknownOpcode (start : Nat) : DecodeError :=
  { code := .unknownOpcode, offset := start, bytesAvailable := 0, bytesRequired := 0 }

/-- `raise TruncatedInstruction` for a read of `n` bytes at `cur` (R124, R232). -/
def truncated (len start cur n : Nat) : DecodeError :=
  { code := .truncatedInstruction, offset := start,
    bytesAvailable := if start ≤ len then len - start else 0,
    bytesRequired := cur + n - start }

/-- The numeric codes of R230. -/
def DecodeErrorCode.number : DecodeErrorCode → Nat
  | .unknownOpcode => 1
  | .truncatedInstruction => 2

def InitErrorCode.number : InitErrorCode → Nat
  | .invalidOperandRole => 3
  | .invalidFormatEntry => 4

/-- The numeric code of a response (R230). -/
def Response.number : Response → Nat
  | .ok _ _ => 0
  | .err e  => e.code.number

/-- Admission of a request with the buffer `buf` (R120, R190; R10 and R26 for the length): `k` is what an admitted
request does. -/
def State.whenAdmitted (s : State) (buf : Buffer) (k : Result) : Result :=
  if s.ready then
    if buf.len < 2 ^ s.params.offsetBits then k else .refused .bufferTooLong
  else .fault .requestBeforeReady

end Sys2Proof.Machine
end

