-- ==== Sys2Proof/Machine/Mov.lean ====
section
/-! DEFINITION. The meanings of the MOV formats (41_mov R150 to R152). The block does not execute a MOV
(00_scope R7): the meaning is the response of its decode, delivered to the requester (log 3). -/

namespace Sys2Proof.Machine

/-- The decoded value of layout RR (R150, R170): roles (RM, REG), swapped when D = 1 (R104). -/
def rrDecoded (mnem : Mnemonic) (d w : Bool) (reg : BitVec 3) (rm : RmField) (s : State) : Decoded :=
  let ops := direction (some 1) (Role.rm, Role.reg) d (rmOperand s.regRom s.eaRom w rm) (regOperand s.regRom w reg)
  { mnem := mnem, op0 := ops.1, op1 := ops.2, w := w }

/-- The decoded value of layout IM (R152, R171): roles (RM, IMM), never swapped. -/
def imDecoded (mnem : Mnemonic) (w : Bool) (rm : RmField) (imm : ImmField) (s : State) : Decoded :=
  { mnem := mnem, op0 := rmOperand s.regRom s.eaRom w rm, op1 := immOperand w imm, w := w }

/-- MOV register/memory to or from register (R150). -/
def execMovRmReg (d w : Bool) (reg : BitVec 3) (rm : RmField) (s : State) : Result :=
  respondOk s (rrDecoded .mov d w reg rm s) (Instr.movRmReg d w reg rm).length

/-- MOV immediate to register, short form (R151): roles (REG, IMM), no direction bit. -/
def execMovImmReg (w : Bool) (reg : BitVec 3) (imm : ImmField) (s : State) : Result :=
  respondOk s { mnem := .mov, op0 := regOperand s.regRom w reg, op1 := immOperand w imm, w := w }
    (Instr.movImmReg w reg imm).length

/-- MOV immediate to register/memory (R152). -/
def execMovImmRm (w : Bool) (rm : RmField) (imm : ImmField) (s : State) : Result :=
  respondOk s (imDecoded .mov w rm imm s) (Instr.movImmRm w rm imm).length

end Sys2Proof.Machine
end

