-- ==== Sys2Proof/Machine/Add.lean ====
section
/-! DEFINITION. The meanings of the ADD formats (42_add R170, R171). The block computes no sum and writes no flag
(00_scope R7, 10_state R28): the meaning is the response of the decode (log 3). -/

namespace Sys2Proof.Machine

/-- ADD register/memory with register (R170). -/
def execAddRmReg (d w : Bool) (reg : BitVec 3) (rm : RmField) (s : State) : Result :=
  respondOk s (rrDecoded .add d w reg rm s) (Instr.addRmReg d w reg rm).length

/-- ADD immediate to register/memory (R171). S only chooses the immediate's length (R97, R105). -/
def execAddImmRm (sx w : Bool) (rm : RmField) (imm : ImmField) (s : State) : Result :=
  respondOk s (imDecoded .add w rm imm s) (Instr.addImmRm sx w rm imm).length

end Sys2Proof.Machine
end

