-- ==== Sys2Proof/Machine/Engine.lean ====
section
/-! DEFINITION. The decode operation for any ROM image, step by step as 40_decode_engine R121 to R130 has it. -/

namespace Sys2Proof.Machine.Engine

/-- `read(1)` of R124: the byte and the cursor after it. -/
def readByte (buf : Buffer) (start cur : Nat) : Except DecodeError (Byte × Nat) :=
  if buf.len < cur + 1 then .error (truncated buf.len start cur 1) else .ok (buf.byte cur, cur + 1)

/-- `read(2)` of R124, little-endian: the check comes before any byte is read. -/
def readHalf (buf : Buffer) (start cur : Nat) : Except DecodeError (Half × Nat) :=
  if buf.len < cur + 2 then .error (truncated buf.len start cur 2)
  else .ok (littleEndian (buf.byte cur) (buf.byte (cur + 1)), cur + 2)

/-- Steps 1 and 2 (R121, R123): fetch, match, and latch D, W and S. -/
def fetchOpcode (fmt : List FormatEntry) (buf : Buffer) (offset : Nat) : Except DecodeError (FormatEntry × Latches) :=
  match readByte buf offset offset with
  | .error e => .error e
  | .ok (byte0, cur) =>
    match matchEntry 0 fmt byte0 with
    | none => .error (unknownOpcode offset)
    | some (k, F) =>
      .ok (F, { start := offset, cur := cur, byte0 := byte0, k := k,
                d := latchFlag F.d byte0, w := latchFlag F.w byte0, s := latchFlag F.s byte0,
                modrm := none, mod := none, reg := none, rm := none, opA := none, opB := none })

/-- The ModRM byte of step 3 (R125). -/
def fetchModRm (F : FormatEntry) (buf : Buffer) (L : Latches) : Except DecodeError Latches :=
  if F.modrm then
    match readByte buf L.start L.cur with
    | .error e => .error e
    | .ok (b, cur) => .ok { L with cur := cur, modrm := some b, mod := some (extract b 6 2), rm := some (extract b 0 3) }
  else .ok L

/-- REG of step 3, from wherever the format keeps it (R76, R125). -/
def latchReg (F : FormatEntry) (L : Latches) : Latches :=
  match F.reg with
  | none               => L
  | some .modrm        => { L with reg := L.modrm.map fun b => extract b 3 3 }
  | some (.byte0 shift) => { L with reg := some (extract L.byte0 shift 3) }

/-- Step 3a, the opcode-extension check (R126): does the ModRM REG field differ from the entry's `ext`? -/
def extensionDiffers (F : FormatEntry) (L : Latches) : Bool :=
  match F.ext, L.modrm with
  | some e, some b => extract b 3 3 != e
  | _, _           => false

/-- `resolve_mem(MOD, RM)` of R94, with MOD = 11 for the register form (R101): the displacement is read here. -/
def readRm (buf : Buffer) (start cur : Nat) (mod : BitVec 2) (rm : BitVec 3) : Except DecodeError (RmField × Nat) :=
  if mod = 0b11#2 then .ok (.register rm, cur)
  else if mod = 0b00#2 ∧ rm = 0b110#3 then
    match readHalf buf start cur with
    | .error e => .error e
    | .ok (v, cur) => .ok (.direct v, cur)
  else if mod = 0b00#2 then .ok (.based rm, cur)
  else if mod = 0b01#2 then
    match readByte buf start cur with
    | .error e => .error e
    | .ok (b, cur) => .ok (.based8 rm b, cur)
  else
    match readHalf buf start cur with
    | .error e => .error e
    | .ok (v, cur) => .ok (.based16 rm v, cur)

/-- The immediate bytes of `resolve(IMM)` (R97, R127). -/
def readImm (buf : Buffer) (start cur : Nat) (w s : Bool) : Except DecodeError (ImmField × Nat) :=
  if immIsByte w s then
    match readByte buf start cur with
    | .error e => .error e
    | .ok (b, cur) => .ok (.imm8 b, cur)
  else
    match readHalf buf start cur with
    | .error e => .error e
    | .ok (v, cur) => .ok (.imm16 v, cur)

/-- `resolve(role)` of R127. A latch that an image passing R263 always has is read as 0 where it is missing (log 19). -/
def resolve (regs : RegRom) (ea : EaRom) (buf : Buffer) (L : Latches) : Role → Except DecodeError (Operand × Nat)
  | .reg => .ok (regOperand regs L.w (L.reg.getD 0#3), L.cur)
  | .rm =>
    match readRm buf L.start L.cur (L.mod.getD 0#2) (L.rm.getD 0#3) with
    | .error e => .error e
    | .ok (rm, cur) => .ok (rmOperand regs ea L.w rm, cur)
  | .imm =>
    match readImm buf L.start L.cur L.w L.s with
    | .error e => .error e
    | .ok (imm, cur) => .ok (immOperand L.w imm, cur)

/-- Step 4 (R127): the two operands in declaration order, and the latches after them. The order of the roles is that of
the bytes read, whatever the entry (logs 16 and 18). -/
def resolveRoles (regs : RegRom) (ea : EaRom) (buf : Buffer) (F : FormatEntry) (L : Latches) :
    Except DecodeError (Operand × Operand × Latches) :=
  match resolve regs ea buf L F.roles.1 with
  | .error e => .error e
  | .ok (a, cur) =>
    match resolve regs ea buf { L with cur := cur, opA := some a } F.roles.2 with
    | .error e => .error e
    | .ok (b, cur) => .ok (a, b, { L with cur := cur, opA := some a, opB := some b })

/-- Steps 5 and 6 (R128, R129). -/
def finish (F : FormatEntry) (L : Latches) (a b : Operand) : Response :=
  .ok { mnem := F.mnem, op0 := (direction F.d F.roles L.d a b).1, op1 := (direction F.d F.roles L.d a b).2, w := L.w }
    (L.cur - L.start)

/-- The decode from the ModRM byte on, of an instruction whose first byte selected the entry `F`. -/
def decodeEntry (regs : RegRom) (ea : EaRom) (buf : Buffer) (F : FormatEntry) (L : Latches) : Response :=
  match fetchModRm F buf L with
  | .error e => .err e
  | .ok L =>
    if extensionDiffers F (latchReg F L) then .err (unknownOpcode L.start)
    else
      match resolveRoles regs ea buf F (latchReg F L) with
      | .error e => .err e
      | .ok (a, b, L) => finish F L a b

/-- `decode(buf, len, offset)` of R130. -/
def decode (fmt : List FormatEntry) (regs : RegRom) (ea : EaRom) (buf : Buffer) (offset : Nat) : Response :=
  match fetchOpcode fmt buf offset with
  | .error e => .err e
  | .ok (F, L) => decodeEntry regs ea buf F L

/-- `dispLen` of R83, by the ModRM byte of a format that has one. -/
def dispLength (modrm : Byte) : Nat :=
  if extract modrm 6 2 = 0b11#2 then 0
  else if extract modrm 6 2 = 0b00#2 then (if extract modrm 0 3 = 0b110#3 then 2 else 0)
  else if extract modrm 6 2 = 0b01#2 then 1
  else 2

/-- `immLen` of R83. -/
def immLength (F : FormatEntry) (byte0 : Byte) : Nat :=
  if F.imm then (if immIsByte (latchFlag F.w byte0) (latchFlag F.s byte0) then 1 else 2) else 0

/-- `length(k, byte0, modrm)` of R83, with `F` for `FMT[k]`. It is what a decode consumes (R133)
where the entry has the role RM with its ModRM byte (log 16). -/
def formatLength (F : FormatEntry) (byte0 modrm : Byte) : Nat :=
  1 + (if F.modrm then 1 + dispLength modrm else 0) + immLength F byte0

end Sys2Proof.Machine.Engine
end

