-- ==== Sys2Proof/Machine/Fetch.lean ====
section
/-! DEFINITION. Fetching an instruction: its bytes lie in the request's buffer from the request's offset on
(20_memory R50, R51). -/

namespace Sys2Proof.Machine

/-- The bytes a decode at `offset` can read: at most six, none past the end (40_decode_engine R131, R132). -/
def fetchBytes (buf : Buffer) (offset : Nat) : List Byte := buf.window offset 6

/-- The instruction at `offset`, when the entry that its first byte selects in the format ROM is an entry of the default
image (R81, R82) and the bytes are all there. -/
def fetchInstr (fmt : List FormatEntry) (buf : Buffer) (offset : Nat) : Option Instr :=
  match fetchBytes buf offset with
  | [] => none
  | byte0 :: rest =>
    match matchEntry 0 fmt byte0 with
    | none => none
    | some (_, F) =>
      match rowOfEntry F with
      | none => none
      | some row =>
        match Decode.decodeRow row byte0 rest with
        | .ok (i, _) => some i
        | .error _   => none

/-- A reason of the byte decoder as the error response of a decode at `start` in a buffer of `len` bytes (R230, R232). -/
def rejectError (len start : Nat) : Reject → DecodeError
  | .unknownOpcode => unknownOpcode start
  | .truncated required =>
    { code := .truncatedInstruction, offset := start,
      bytesAvailable := if start ≤ len then len - start else 0, bytesRequired := required }

end Sys2Proof.Machine
end

