-- ==== Sys2Proof/Machine/Init.lean ====
section
/-! DEFINITION. Initialisation: the check of the ROM image and the loading of FMT_ROM
(70_reset_and_hazards R260 to R265). -/

namespace Sys2Proof.Machine

/-- The checks of R263 by their names there. -/
def checkWF1 (F : FormatEntry) : Bool := !hasRole F .reg || F.reg.isSome
def checkWF2 (F : FormatEntry) : Bool := !hasRole F .rm || F.modrm
def checkWF3 (F : FormatEntry) : Bool := !hasRole F .imm || F.imm
def checkWF4 (F : FormatEntry) : Bool := (!F.imm || hasRole F .imm) && (!F.reg.isSome || hasRole F .reg)
def checkWF5 (F : FormatEntry) : Bool := (F.opcode &&& ~~~F.mask) == 0#8
def checkWF6 (F : FormatEntry) : Bool :=
  (!(F.reg == some .modrm || F.ext.isSome) || F.modrm) &&
    match F.reg with
    | some (.byte0 shift) => decide (shift ≤ 5)
    | _ => true
def checkWF7 (F : FormatEntry) : Bool := !(F.ext.isSome && F.reg == some .modrm)

/-- Is an optional bit position 0 to 7? -/
def positionOk (pos : Option Nat) : Bool := pos.all fun p => decide (p ≤ 7)

def checkWF8 (mnemonics : List Mnemonic) (F : FormatEntry) : Bool :=
  F.roles.1 != F.roles.2 && positionOk F.d && positionOk F.w && positionOk F.s && mnemonics.contains F.mnem

/-- The check of one entry, in the order WF1 to WF8 (R263). -/
def checkEntry (mnemonics : List Mnemonic) (F : FormatEntry) : Option InitErrorCode :=
  if checkWF1 F && checkWF2 F && checkWF3 F && checkWF4 F then
    if checkWF5 F && checkWF6 F && checkWF7 F && checkWF8 mnemonics F then none else some .invalidFormatEntry
  else some .invalidOperandRole

/-- The check of an image in entry order (R263): the first failure, with the entry's index. `k` is the index of the
list's first entry. -/
def checkImageFrom (mnemonics : List Mnemonic) (k : Nat) : List FormatEntry → Option InitError
  | [] => none
  | F :: rest =>
    match checkEntry mnemonics F with
    | some code => some { code := code, index := k }
    | none => checkImageFrom mnemonics (k + 1) rest

def checkImage (mnemonics : List Mnemonic) (image : List FormatEntry) : Option InitError := checkImageFrom mnemonics 0 image

/-- The host presents an image (R34, R261, R262, R265). -/
def initialise (s : State) (image : List FormatEntry) : Result :=
  if s.initPort = .pending then
    if image = [] then .refused .emptyRomImage
    else
      match checkImage s.params.mnemonics image with
      | none   => .next { s with fmtRom := image, ready := true, initPort := .passed, inputs := s.inputs.tail }
      | some e => .next { s with initPort := .failed e, inputs := s.inputs.tail }
  else .fault .secondInitialisation

end Sys2Proof.Machine
end

