-- ==== Sys2Proof/Machine/HostActions.lean ====
section
/-! DEFINITION. What the block does with the host's actions other than a decode request
(43_stream_driver R190, R196, R198; 20_memory R57, R63). -/

namespace Sys2Proof.Machine

/-- A stream request (R190): a new context at offset 0, which the sequencer serves next (log 5). -/
def openStream (s : State) (buf : Buffer) : Result :=
  s.whenAdmitted buf (.next { s with streams := s.streams ++ [StreamCtx.start buf], turn := s.streams.length, inputs := s.inputs.tail })

/-- The host takes the coming elements from stream `k` (R196, R198). A stream that ended by an error is never resumed
(R238; log 17), nor is one that the host abandoned (log 24). -/
def resumeStream (s : State) (k : Nat) : Result :=
  match s.streams[k]? with
  | none => .fault .noSuchStream
  | some c => c.whenTakable (.next { s with turn := k, inputs := s.inputs.tail })

/-- The host stops taking elements from stream `k`: "the stream is abandoned with no other effect" (R196; log 24). -/
def abandonStream (s : State) (k : Nat) : Result :=
  match s.streams[k]? with
  | none => .fault .noSuchStream
  | some _ => .next { s with streams := s.streams.modify k fun c => { c with abandoned := true }, inputs := s.inputs.tail }

/-- The host changes a byte of the buffer of stream `k`: refused while that stream runs (R57), and the host's own affair
once it has ended or was abandoned (R63, R196). DESIGN CHOICE (log 9), safe: after the last `Line`, with `offset = len`, the
stream still runs until one more `take` finds its end (R191), and a change is refused until then, although R267 asks for an
unchanged buffer only until the stream's last element. -/
def changeByte (s : State) (k i : Nat) (b : Byte) : Result :=
  match s.streams[k]? with
  | none => .fault .noSuchStream
  | some c =>
    if c.buf.len ≤ i then .fault .noSuchOffset
    else if c.phase = .running ∧ c.abandoned = false ∧ c.buf.byte i ≠ b then .refused .bufferChangedDuringStream
    else .next { s with streams := s.streams.modify k fun c => { c with buf := c.buf.write i b }, inputs := s.inputs.tail }

end Sys2Proof.Machine
end

