-- ==== Sys2Proof/Machine/Step.lean ====
section
/-! DEFINITION. One step: the host's oldest pending action (log 4). One of them is to take an element from the stream
selected, which is one step of the stream sequencer (43_stream_driver R191, R196). -/

namespace Sys2Proof.Machine

/-- Perform the decode of `buf` at `offset` (40_decode_engine R130): an instruction of the default image by its meaning;
anything else, the errors among it, by the general algorithm (log 23). -/
def serveDecode (s : State) (buf : Buffer) (offset : Nat) : Result :=
  match fetchInstr s.fmtRom buf offset with
  | some i => exec i s
  | none   => respond s (Engine.decode s.fmtRom s.regRom s.eaRom buf offset)

/-- One step of the sequencer on the stream selected (R191): the host takes one element (R196). A stream at its end has
no further element; one that ended by an error is never resumed (R238; log 17). -/
def sequencerStep (s : State) : Result :=
  match s.current with
  | none => .fault .noSuchStream
  | some c =>
    c.whenTakable <|
      if c.phase = .endedAtEnd then .next s.popInput
      else if c.offset = c.buf.len then .next (s.updateCurrent StreamCtx.finish).popInput
      else serveDecode s c.buf c.offset

/-- One step of the block. With nothing from the host pending it is idle: no element comes out untaken (R196, R247;
log 6). -/
def step (s : State) : Host.Outcome State Fault Refusal :=
  match s.inputs with
  | [] => .next s
  | .take :: _ => sequencerStep s
  | .initialise image :: _ => initialise s image
  | .decodeRequest buf offset :: _ => s.whenAdmitted buf (serveDecode s buf offset)
  | .streamRequest buf :: _ => openStream s buf
  | .resume k :: _ => resumeStream s k
  | .abandon k :: _ => abandonStream s k
  | .changeByte k i b :: _ => changeByte s k i b

/-- The state in which the next step fetches and runs the instruction whose word is `w`: a ready block with the default
image has a fresh stream over the instruction's bytes selected, and the host takes one element (log 2). -/
def State.withFetchWord (s : State) (nbits w : Nat) : State :=
  { s with
    ready := true, initPort := .passed, fmtRom := defaultImage, inputs := [.take],
    streams := s.streams ++ [StreamCtx.start (Buffer.ofBytes (wordBytes nbits w))], turn := s.streams.length }

end Sys2Proof.Machine
end

