-- ==== Sys2Proof/Machine/Renderer.lean ====
section
/-! DEFINITION. The reference renderer (44_renderer R205 to R213), an observation function outside the block: no
definition of the machine reads it (00_scope R6). A text is a list of characters. -/

namespace Sys2Proof.Machine.Renderer

/-- A decimal digit. -/
def digit (n : Nat) : Char := Char.ofNat (48 + n % 10)

/-- Decimal digits of `n`, most significant first, in front of `tail`; `fuel` bounds their number. -/
def digitsOnto : Nat → Nat → List Char → List Char
  | 0, _, tail => tail
  | fuel + 1, n, tail => if n < 10 then digit n :: tail else digitsOnto fuel (n / 10) (digit n :: tail)

/-- The decimal numeral of a natural number: no leading zeros, `0` is "0" (R207). -/
def decimal (n : Nat) : List Char := digitsOnto (n + 1) n []

/-- The decimal numeral of an integer, with a leading `-` for a negative one (R207). -/
def decimalInt (v : Int) : List Char := if v < 0 then '-' :: decimal v.natAbs else decimal v.natAbs

/-- The canonical lower-case name (R206). -/
def regText : RegName → List Char
  | .al => ['a', 'l'] | .cl => ['c', 'l'] | .dl => ['d', 'l'] | .bl => ['b', 'l']
  | .ah => ['a', 'h'] | .ch => ['c', 'h'] | .dh => ['d', 'h'] | .bh => ['b', 'h']
  | .ax => ['a', 'x'] | .cx => ['c', 'x'] | .dx => ['d', 'x'] | .bx => ['b', 'x']
  | .sp => ['s', 'p'] | .bp => ['b', 'p'] | .si => ['s', 'i'] | .di => ['d', 'i']

def mnemText : Mnemonic → List Char
  | .mov        => ['m', 'o', 'v']
  | .add        => ['a', 'd', 'd']
  | .other name => name

/-- The names of the bases joined with `+` (R209). -/
def joinBases : List RegName → List Char
  | []          => []
  | [r]         => regText r
  | r :: rest   => regText r ++ '+' :: joinBases rest

/-- The displacement term: nothing for an absent or zero displacement (R209). -/
def dispText : Option Disp → List Char
  | none => []
  | some d =>
    if 0 < d.value then '+' :: decimal d.value.natAbs
    else if d.value < 0 then '-' :: decimal d.value.natAbs
    else []

/-- An operand (R206 to R209). -/
def operandText : Operand → List Char
  | .reg r                  => regText r
  | .imm v                  => decimalInt v
  | .mem (.direct addr)     => '[' :: decimal addr.toNat ++ [']']
  | .mem (.based bases disp) => '[' :: (joinBases bases ++ dispText disp) ++ [']']

/-- `render` of R205: mnemonic, a space, the operands joined by a comma and a space. `w` is not rendered. -/
def render (i : Decoded) : List Char :=
  mnemText i.mnem ++ ' ' :: (operandText i.op0 ++ ',' :: ' ' :: operandText i.op1)

/-- The failure line of R212. -/
def failureLine (e : DecodeError) : List Char :=
  match e.code with
  | .unknownOpcode => "error: UnknownOpcode at offset ".toList ++ decimal e.offset
  | .truncatedInstruction =>
    "error: TruncatedInstruction at offset ".toList ++ decimal e.offset ++ " (available ".toList ++ decimal e.bytesAvailable ++
      ", required ".toList ++ decimal e.bytesRequired ++ [')']

/-- One line per element (R197). -/
def elementText : Element → List Char
  | .line _ i _ => render i
  | .error e    => failureLine e

/-- The output of a stream: newline-separated lines (R197). An error is the last element, so output stops with it. -/
def outputText : List Element → List Char
  | []        => []
  | [e]       => elementText e
  | e :: rest => elementText e ++ '\n' :: outputText rest

end Sys2Proof.Machine.Renderer
end

