-- ==== Sys2Proof/Safety.lean ====
section
/-! DEFINITION. The terms claims are stated in: when the block serves a stream or the decode port, the next states the
rules give, the operands of 30_encoding R92 to R99 restated, and the invariant of the block. -/

namespace Sys2Proof.Safety

open Machine

/-- The sequencer is about to decode for the stream `c` (R191, R196): the host takes an element, `rest` comes after it,
and the stream selected runs, is not abandoned and has not reached the end of its buffer. -/
def StreamServes (s : State) (c : StreamCtx) (rest : List HostInput) : Prop :=
  s.ready = true ∧ s.inputs = .take :: rest ∧ s.streams[s.turn]? = some c ∧ c.phase = .running ∧ c.abandoned = false ∧
    c.offset ≠ c.buf.len

/-- A decode request of the host is first in line (R31), and `rest` comes after it. -/
def PortServes (s : State) (buf : Buffer) (offset : Nat) (rest : List HostInput) : Prop :=
  s.ready = true ∧ s.inputs = .decodeRequest buf offset :: rest

/-- The state after the sequencer emitted a `Line` (R191). -/
def lineEmitted (s : State) (c : StreamCtx) (rest : List HostInput) (instr : Decoded) (consumed : Nat) : State :=
  { s with
    latches := none, inputs := rest,
    streams := s.streams.set s.turn { c with offset := c.offset + consumed, out := c.out ++ [.line c.offset instr consumed] } }

/-- The state after the sequencer emitted an `Error` (R191). -/
def errorEmitted (s : State) (c : StreamCtx) (rest : List HostInput) (e : DecodeError) : State :=
  { s with
    latches := none, inputs := rest,
    streams := s.streams.set s.turn { c with phase := .endedByError, out := c.out ++ [.error e] } }

/-- What one step of the sequencer makes of the stream `c`, from the stream and the tables of the block alone (R191). -/
def advance (s : State) (c : StreamCtx) : StreamCtx :=
  if c.phase ≠ .running then c
  else if c.offset = c.buf.len then { c with phase := .endedAtEnd }
  else
    match Engine.decode s.fmtRom s.regRom s.eaRom c.buf c.offset with
    | .ok instr consumed => { c with offset := c.offset + consumed, out := c.out ++ [.line c.offset instr consumed] }
    | .err e             => { c with phase := .endedByError, out := c.out ++ [.error e] }

/-- The host's actions that take one element from each stream of the list, in its order (R196, R198). -/
def takes (ks : List Nat) : List HostInput := ks.flatMap fun k => [.resume k, .take]

/-- The state after the decode port gave a response (R30). -/
def answered (s : State) (rest : List HostInput) (r : Response) : State :=
  { s with latches := none, inputs := rest, responses := s.responses ++ [r] }

/-- `resolve(role)` as R127 lists it, with `resolve_mem` of R94 and the displacements and immediates as two's-complement
integers (R95, R96, R99). -/
def listedResolve (regs : RegRom) (ea : EaRom) (buf : Buffer) (start : Nat) (w s : Bool) (reg : BitVec 3) (mod : BitVec 2)
    (rm : BitVec 3) (cur : Nat) : Role → Except DecodeError (Operand × Nat)
  | .reg => .ok (.reg (regName regs w reg), cur)
  | .rm => do
    if mod = 0b11#2 then return (.reg (regName regs w rm), cur)
    else if mod = 0b00#2 ∧ rm = 0b110#3 then
      let (v, cur) ← Engine.readHalf buf start cur
      return (.mem (.direct v), cur)
    else if mod = 0b00#2 then return (.mem (.based (eaBases ea rm) none), cur)
    else if mod = 0b01#2 then
      let (b, cur) ← Engine.readByte buf start cur
      return (.mem (.based (eaBases ea rm) (some { value := b.toInt, width := .w8 })), cur)
    else
      let (v, cur) ← Engine.readHalf buf start cur
      return (.mem (.based (eaBases ea rm) (some { value := v.toInt, width := .w16 })), cur)
  | .imm => do
    if w = false then
      let (b, cur) ← Engine.readByte buf start cur
      return (.imm b.toInt, cur)
    else if s = true then
      let (b, cur) ← Engine.readByte buf start cur
      return (.imm (b.signExtend 16).toInt, cur)
    else
      let (v, cur) ← Engine.readHalf buf start cur
      return (.imm v.toInt, cur)

/-- The one-bit field at an optional position, as `opt` of R130. -/
def listedFlag (byte0 : Byte) : Option Nat → Bool
  | some p => extract byte0 p 1 == 1#1
  | none   => false

/-- What the first two steps of the listing of R130 find: the entry, its flags, the ModRM byte, REG, and the cursor. -/
structure Listed where
  entry : FormatEntry
  d     : Bool
  w     : Bool
  s     : Bool
  modrm : Byte
  reg   : BitVec 3
  cur   : Nat

/-- The listing of R130 up to the extension check, line by line. -/
def listedHead (fmt : List FormatEntry) (buf : Buffer) (offset : Nat) : Except DecodeError Listed := do
  let unknown : DecodeError := { code := .unknownOpcode, offset := offset, bytesAvailable := 0, bytesRequired := 0 }
  let (byte0, cur) ← Engine.readByte buf offset offset
  let some F := fmt.find? (fun F => byte0 &&& F.mask == F.opcode) | throw unknown
  let (modrm, cur) ← if F.modrm then Engine.readByte buf offset cur else pure (0#8, cur)
  let reg := match F.reg with
    | some .modrm      => extract modrm 3 3
    | some (.byte0 sh) => extract byte0 sh 3
    | none             => 0#3
  if F.modrm = true ∧ F.ext.isSome = true ∧ F.ext ≠ some (extract modrm 3 3) then throw unknown
  return { entry := F, d := listedFlag byte0 F.d, w := listedFlag byte0 F.w, s := listedFlag byte0 F.s,
           modrm := modrm, reg := reg, cur := cur }

/-- The operand of a role of the entry found, read from the cursor `cur` on. -/
def Listed.operand (x : Listed) (regs : RegRom) (ea : EaRom) (buf : Buffer) (offset cur : Nat) (r : Role) :
    Except DecodeError (Operand × Nat) :=
  listedResolve regs ea buf offset x.w x.s x.reg (extract x.modrm 6 2) (extract x.modrm 0 3) cur r

/-- The last three lines of the listing of R130, for the operands in role order and the cursor after them. -/
def Listed.answer (x : Listed) (offset : Nat) (opA opB : Operand) (cur : Nat) : Response :=
  let F := x.entry
  let swap := F.d.isSome = true ∧ (F.roles = (.rm, .reg) ∨ F.roles = (.reg, .rm)) ∧ x.d = true
  .ok { mnem := F.mnem, op0 := if swap then opB else opA, op1 := if swap then opA else opB, w := x.w } (cur - offset)

def asResponse : Except DecodeError Response → Response
  | .ok r    => r
  | .error e => .err e

/-- The listing of R130: the operands are resolved in declaration order. -/
def listing (fmt : List FormatEntry) (regs : RegRom) (ea : EaRom) (buf : Buffer) (offset : Nat) : Response :=
  asResponse do
    let x ← listedHead fmt buf offset
    let (opA, cur) ← x.operand regs ea buf offset x.cur x.entry.roles.1
    let (opB, cur) ← x.operand regs ea buf offset cur x.entry.roles.2
    return x.answer offset opA opB cur

/-- An instruction read by its layout (R51, R70): after the ModRM byte, if the format has one, the displacement; then the
immediate, if the format has one; the operands stand in role order. -/
def layoutListing (fmt : List FormatEntry) (regs : RegRom) (ea : EaRom) (buf : Buffer) (offset : Nat) : Response :=
  asResponse do
    let x ← listedHead fmt buf offset
    let (reg, cur) ← x.operand regs ea buf offset x.cur .reg
    let (rm, cur) ← if x.entry.modrm then x.operand regs ea buf offset cur .rm else pure (reg, cur)
    let (imm, cur) ← if x.entry.imm then x.operand regs ea buf offset cur .imm else pure (reg, cur)
    let operand : Role → Operand
      | .reg => reg
      | .rm  => rm
      | .imm => imm
    return x.answer offset (operand x.entry.roles.1) (operand x.entry.roles.2) cur

/-- The RM operand as R94 and R101 give it, with the displacements as two's-complement integers (R95, R96). -/
def rmValue (regs : RegRom) (ea : EaRom) (w : Bool) : RmField → Operand
  | .register rm  => .reg (regName regs w rm)
  | .direct addr  => .mem (.direct addr)
  | .based rm     => .mem (.based (eaBases ea rm) none)
  | .based8 rm b  => .mem (.based (eaBases ea rm) (some { value := b.toInt, width := .w8 }))
  | .based16 rm v => .mem (.based (eaBases ea rm) (some { value := v.toInt, width := .w16 }))

/-- The displacement bytes of each form (R83). -/
def rmBytesCount : RmField → Nat
  | .register _  => 0
  | .direct _    => 2
  | .based _     => 0
  | .based8 _ _  => 1
  | .based16 _ _ => 2

/-- The immediate as a two's-complement integer (R99). -/
def immValue : ImmField → Int
  | .imm8 b  => b.toInt
  | .imm16 v => v.toInt

def immBytesCount : ImmField → Nat
  | .imm8 _  => 1
  | .imm16 _ => 2

/-- The value a decode of each instruction gives, destination first (R150 to R152, R170, R171): the RM and REG operands
change places when D = 1 (R104); the immediate is always the source. -/
def decodedValue (regs : RegRom) (ea : EaRom) : Instr → Decoded
  | .movRmReg false w reg rm => { mnem := .mov, op0 := rmValue regs ea w rm, op1 := .reg (regName regs w reg), w := w }
  | .movRmReg true w reg rm  => { mnem := .mov, op0 := .reg (regName regs w reg), op1 := rmValue regs ea w rm, w := w }
  | .movImmReg w reg imm     => { mnem := .mov, op0 := .reg (regName regs w reg), op1 := .imm (immValue imm), w := w }
  | .movImmRm w rm imm       => { mnem := .mov, op0 := rmValue regs ea w rm, op1 := .imm (immValue imm), w := w }
  | .addRmReg false w reg rm => { mnem := .add, op0 := rmValue regs ea w rm, op1 := .reg (regName regs w reg), w := w }
  | .addRmReg true w reg rm  => { mnem := .add, op0 := .reg (regName regs w reg), op1 := rmValue regs ea w rm, w := w }
  | .addImmRm _ w rm imm     => { mnem := .add, op0 := rmValue regs ea w rm, op1 := .imm (immValue imm), w := w }

/-- `exec i` completes with the decoded value `v` and the length `n` for whoever asked: a `Line` of the served stream, or
a response of the decode port. -/
def CompletesWith (i : Instr) (s : State) (v : Decoded) (n : Nat) : Prop :=
  (∀ c rest, StreamServes s c rest → exec i s = .next (lineEmitted s c rest v n)) ∧
  (∀ buf offset rest, PortServes s buf offset rest → exec i s = .next (answered s rest (.ok v n)))

/-- Where the elements of a stream end, if they lie end to end from `start` on: each `Line` at the end of the one before
it, at least one byte long, and an `Error` only as the last element, at the offset reached (R192, R194). -/
def tileEnd (start : Nat) : List Element → Option Nat
  | [] => some start
  | .line offset _ consumed :: rest => if offset = start ∧ 1 ≤ consumed then tileEnd (start + consumed) rest else none
  | [.error e] => if e.offset = start then some start else none
  | .error _ :: _ :: _ => none

def Element.isError : Element → Bool
  | .line _ _ _ => false
  | .error _    => true

/-- What holds of every stream (R192, R194). -/
structure StreamInv (c : StreamCtx) : Prop where
  bufWf      : c.buf.wf = true
  inBuffer   : c.offset ≤ c.buf.len
  tiles      : tileEnd 0 c.out = some c.offset
  atEnd      : c.phase = .endedAtEnd → c.offset = c.buf.len
  errorEnded : c.out.any Element.isError = decide (c.phase = .endedByError)

/-- The buffers the host hands over are well formed. -/
def inputWf : HostInput → Bool
  | .initialise _           => true
  | .decodeRequest buf _    => buf.wf
  | .streamRequest buf      => buf.wf
  | .resume _               => true
  | .take                   => true
  | .abandon _              => true
  | .changeByte _ _ _       => true

/-- The invariant of the block (R22, R23, R27, R34, R192, R194, R263). -/
structure Inv (s : State) : Prop where
  regRom   : s.regRom = defaultRegRom
  eaRom    : s.eaRom = defaultEaRom
  readyIff : s.ready = true ↔ s.initPort = .passed
  image    : s.ready = true → s.fmtRom ≠ [] ∧ checkImage s.params.mnemonics s.fmtRom = none
  unready  : s.ready = false → s.streams = [] ∧ s.responses = []
  latches  : s.latches = none
  streams  : ∀ c ∈ s.streams, StreamInv c
  inputs   : ∀ x ∈ s.inputs, inputWf x = true

end Sys2Proof.Safety
end

