-- ==== Sys2Proof/Certificates/Slice0/Obligations.lean ====
section
/-! DEFINITION. The statements for the provers, in the order of OBLIGATIONS.json. Each docstring names the rule of spec/
it formalises; where a clause rests on the model's own choice, it names the log entry. -/

open Sys2Proof Sys2Proof.Machine Sys2Proof.Safety

/-! ### The tables and the reset state -/

/-- The reset state of the model is the block after initialisation with the default image (log 1, DEDUCED), and
initialising a fresh block with that image leads to it (R37, R261). -/
def Obligations.ResetIsTheInitialisedBlock : Prop :=
  State.reset.fmtRom = defaultImage ∧ State.reset.regRom = defaultRegRom ∧ State.reset.eaRom = defaultEaRom ∧
  State.reset.ready = true ∧ State.reset.streams = [] ∧ State.reset.responses = [] ∧ State.reset.latches = none ∧
  State.reset.params.mnemonics = [.mov, .add] ∧
  step { State.beforeInit with inputs := [.initialise defaultImage] } = .next State.reset

/-- The invariant holds after reset. -/
def Obligations.ResetMeetsInvariant : Prop := Inv State.reset

/-- R82: the default image, line by line. -/
def Obligations.DefaultImageIsTheTable : Prop :=
  defaultImage =
    [ { opcode := 0x88#8, mask := 0xFC#8, mnem := .mov, roles := (.rm, .reg), d := some 1, w := some 0, s := none,
        reg := some .modrm, imm := false, modrm := true, ext := none },
      { opcode := 0xB0#8, mask := 0xF0#8, mnem := .mov, roles := (.reg, .imm), d := none, w := some 3, s := none,
        reg := some (.byte0 0), imm := true, modrm := false, ext := none },
      { opcode := 0xC6#8, mask := 0xFE#8, mnem := .mov, roles := (.rm, .imm), d := none, w := some 0, s := none,
        reg := none, imm := true, modrm := true, ext := some 0#3 },
      { opcode := 0x00#8, mask := 0xFC#8, mnem := .add, roles := (.rm, .reg), d := some 1, w := some 0, s := none,
        reg := some .modrm, imm := false, modrm := true, ext := none },
      { opcode := 0x80#8, mask := 0xFC#8, mnem := .add, roles := (.rm, .imm), d := none, w := some 0, s := some 1,
        reg := none, imm := true, modrm := true, ext := some 0#3 } ]

/-- R90: the sixteen register names, by width bit and code. -/
def Obligations.RegisterNamesByCode : Prop :=
  (List.range 8).map (fun c => regName defaultRegRom false (BitVec.ofNat 3 c)) =
    [RegName.al, .cl, .dl, .bl, .ah, .ch, .dh, .bh] ∧
  (List.range 8).map (fun c => regName defaultRegRom true (BitVec.ofNat 3 c)) =
    [RegName.ax, .cx, .dx, .bx, .sp, .bp, .si, .di]

/-- R92: the base registers of each RM code. -/
def Obligations.BaseRegistersByCode : Prop :=
  (List.range 8).map (fun c => eaBases defaultEaRom (BitVec.ofNat 3 c)) =
    [[RegName.bx, .si], [.bx, .di], [.bp, .si], [.bp, .di], [.si], [.di], [.bp], [.bx]]

/-! ### Encoding -/

/-- Words written out from the layouts R77 to R79 and the worked examples decode to what they stand for. -/
def Obligations.WrittenWordsDecode : Prop :=
  Decode.decode [0b10001001#8, 0b11011001#8] = .ok (.movRmReg false true 0b011#3 (.register 0b001#3), []) ∧
  Decode.decode [0b10110001#8, 0b00001100#8] = .ok (.movImmReg false 0b001#3 (.imm8 12#8), []) ∧
  Decode.decode [0b11000111#8, 0b10000101#8, 0x85#8, 0x03#8, 0x5b#8, 0x01#8] =
    .ok (.movImmRm true (.based16 0b101#3 901#16) (.imm16 347#16), []) ∧
  Decode.decode [0b00000011#8, 0b01011110#8, 0x00#8] = .ok (.addRmReg true true 0b011#3 (.based8 0b110#3 0#8), []) ∧
  Decode.decode [0b10000011#8, 0b11000011#8, 0xf4#8, 0x90#8] =
    .ok (.addImmRm true true (.register 0b011#3) (.imm8 0xf4#8), [0x90#8])

/-- Decoding the encoding of a well-formed instruction, with any bytes after it, gives the instruction and those bytes. -/
def Obligations.DecodeAfterEncode : Prop :=
  ∀ (i : Instr) (rest : List Byte), i.wellFormed = true → Decode.decode (Encode.encode i ++ rest) = .ok (i, rest)

/-- Bytes that decode are the encoding of the instruction they decode to, which is well formed. -/
def Obligations.EncodeAfterDecode : Prop :=
  ∀ (bytes rest : List Byte) (i : Instr), Decode.decode bytes = .ok (i, rest) →
    i.wellFormed = true ∧ Encode.encode i ++ rest = bytes

/-- R233: which formats raise what, once their first byte has matched. -/
def Obligations.ErrorsOfEachFormat : Prop :=
  (∀ row byte0 rest, Decode.decodeRow row byte0 rest = .error .unknownOpcode → row = .movImmRm ∨ row = .addImmRm) ∧
  (∀ row, row = .movImmRm ∨ row = .addImmRm → ∃ byte0 rest, Decode.decodeRow row byte0 rest = .error .unknownOpcode) ∧
  (∀ row, ∃ byte0 rest required, Decode.decodeRow row byte0 rest = .error (.truncated required)) ∧
  (∀ byte0 rest, Decode.decode (byte0 :: rest) = .error .unknownOpcode →
    Decode.rowOfByte byte0 = none ∨ Decode.rowOfByte byte0 = some .movImmRm ∨ Decode.rowOfByte byte0 = some .addImmRm)

/-- R85: the opcode map by first byte, with the fields the first byte holds; a first byte that the map gives no entry fails
with UnknownOpcode. -/
def Obligations.OpcodeMapByFirstByte : Prop :=
  (∀ b : Byte, Decode.rowOfByte b =
    if b.toNat ≤ 0x03 then some .addRmReg
    else if 0x80 ≤ b.toNat ∧ b.toNat ≤ 0x83 then some .addImmRm
    else if 0x88 ≤ b.toNat ∧ b.toNat ≤ 0x8B then some .movRmReg
    else if 0xB0 ≤ b.toNat ∧ b.toNat ≤ 0xBF then some .movImmReg
    else if 0xC6 ≤ b.toNat ∧ b.toNat ≤ 0xC7 then some .movImmRm
    else none) ∧
  ((List.range 256).filter fun n => (Decode.rowOfByte (BitVec.ofNat 8 n)).isNone).length = 226 ∧
  (∀ (b : Byte) (rest : List Byte), Decode.rowOfByte b = none → Decode.decode (b :: rest) = .error .unknownOpcode) ∧
  (∀ b : Byte, 0xB0 ≤ b.toNat ∧ b.toNat ≤ 0xBF → latchFlag (rowEntry .movImmReg).w b = decide (0xB8 ≤ b.toNat)) ∧
  (∀ L : Latches, (Engine.latchReg (rowEntry .movImmReg) L).reg.map BitVec.toNat = some (L.byte0.toNat % 8)) ∧
  (∀ b : Byte, latchFlag (rowEntry .addRmReg).d b = b.getLsbD 1 ∧ latchFlag (rowEntry .addRmReg).w b = b.getLsbD 0 ∧
    latchFlag (rowEntry .movRmReg).d b = b.getLsbD 1 ∧ latchFlag (rowEntry .movRmReg).w b = b.getLsbD 0 ∧
    latchFlag (rowEntry .addImmRm).s b = b.getLsbD 1 ∧ latchFlag (rowEntry .addImmRm).w b = b.getLsbD 0 ∧
    latchFlag (rowEntry .movImmRm).w b = b.getLsbD 0)

/-- R73: the extractor's value. -/
def Obligations.ExtractorIsShiftAndMask : Prop :=
  ∀ (b : Byte) (shift width : Nat),
    (extract b shift width).toNat = (b.toNat >>> shift) &&& (2 ^ width - 1) ∧ (extract b shift width).toNat < 2 ^ width

/-! ### Matching -/

/-- R81: the entry a first byte selects is the lowest-index one that matches; with none, the decode fails with
UnknownOpcode. -/
def Obligations.MatchTakesTheLowestIndex : Prop :=
  (∀ (fmt : List FormatEntry) (b : Byte) (k : Nat) (F : FormatEntry),
    matchEntry 0 fmt b = some (k, F) ↔
      fmt[k]? = some F ∧ b &&& F.mask = F.opcode ∧ ∀ j G, j < k → fmt[j]? = some G → b &&& G.mask ≠ G.opcode) ∧
  (∀ fmt regs ea (buf : Buffer) off, off < buf.len → (∀ F ∈ fmt, buf.byte off &&& F.mask ≠ F.opcode) →
    Engine.decode fmt regs ea buf off =
      .err { code := .unknownOpcode, offset := off, bytesAvailable := 0, bytesRequired := 0 })

/-- R84: at most one entry of the default image matches a byte, and the ROM order changes no result. -/
def Obligations.DefaultImageOrderDoesNotMatter : Prop :=
  (∀ (b : Byte), ∀ F ∈ defaultImage, ∀ G ∈ defaultImage, b &&& F.mask = F.opcode → b &&& G.mask = G.opcode → F = G) ∧
  (∀ image regs ea buf off, image.Perm defaultImage →
    Engine.decode image regs ea buf off = Engine.decode defaultImage regs ea buf off)

/-- R264: the check looks at each entry alone, so an overlap is no error; of two entries that match one byte, the match
never takes the one with the higher index, and takes the lower one when no entry below it matches (R81); the default image
has no overlap (R84). -/
def Obligations.OverlapIsNoError : Prop :=
  (∀ mnemonics image, checkImage mnemonics image = none ↔ ∀ F ∈ image, checkEntry mnemonics F = none) ∧
  (∀ (image : List FormatEntry) (b : Byte) (j k : Nat) (F G : FormatEntry), j < k → image[j]? = some F → image[k]? = some G →
    b &&& F.mask = F.opcode → b &&& G.mask = G.opcode →
      (∃ i H, matchEntry 0 image b = some (i, H) ∧ image[i]? = some H ∧ b &&& H.mask = H.opcode ∧ i ≤ j) ∧
      ((∀ i H, i < j → image[i]? = some H → b &&& H.mask ≠ H.opcode) → matchEntry 0 image b = some (j, F))) ∧
  (∀ (b : Byte), ∀ F ∈ defaultImage, ∀ G ∈ defaultImage, b &&& F.mask = F.opcode → b &&& G.mask = G.opcode → F = G)

/-! ### Initialisation -/

/-- R263: the checks WF1 to WF8, their order, and the first failure of an image. -/
def Obligations.ImageCheckFindsTheFirstFailure : Prop :=
  (∀ (mnemonics : List Mnemonic) (F : FormatEntry),
    let wf1 := (F.roles.1 = .reg ∨ F.roles.2 = .reg) → F.reg ≠ none
    let wf2 := (F.roles.1 = .rm ∨ F.roles.2 = .rm) → F.modrm = true
    let wf3 := (F.roles.1 = .imm ∨ F.roles.2 = .imm) → F.imm = true
    let wf4 := (F.imm = true → F.roles.1 = .imm ∨ F.roles.2 = .imm) ∧ (F.reg ≠ none → F.roles.1 = .reg ∨ F.roles.2 = .reg)
    let wf5 := F.opcode &&& ~~~F.mask = 0#8
    let wf6 := ((F.reg = some .modrm ∨ F.ext ≠ none) → F.modrm = true) ∧ ∀ sh, F.reg = some (.byte0 sh) → sh ≤ 5
    let wf7 := ¬(F.ext ≠ none ∧ F.reg = some .modrm)
    let wf8 := F.roles.1 ≠ F.roles.2 ∧ (∀ p, F.d = some p ∨ F.w = some p ∨ F.s = some p → p ≤ 7) ∧ F.mnem ∈ mnemonics
    (checkEntry mnemonics F = some .invalidOperandRole ↔ ¬(wf1 ∧ wf2 ∧ wf3 ∧ wf4)) ∧
    (checkEntry mnemonics F = some .invalidFormatEntry ↔ (wf1 ∧ wf2 ∧ wf3 ∧ wf4) ∧ ¬(wf5 ∧ wf6 ∧ wf7 ∧ wf8))) ∧
  (∀ mnemonics image (e : InitError), checkImage mnemonics image = some e ↔
    ∃ F, image[e.index]? = some F ∧ checkEntry mnemonics F = some e.code ∧
      ∀ j G, j < e.index → image[j]? = some G → checkEntry mnemonics G = none) ∧
  InitErrorCode.number .invalidOperandRole = 3 ∧ InitErrorCode.number .invalidFormatEntry = 4

/-- R261: an image that passes is copied into FMT_ROM in its order and the block is ready; nothing else changes. (An
image has at least one entry, R10.) -/
def Obligations.PassedCheckLoadsTheImage : Prop :=
  ∀ (s : State) image rest, s.initPort = .pending → s.inputs = .initialise image :: rest → image ≠ [] →
    checkImage s.params.mnemonics image = none →
      step s = .next { s with fmtRom := image, ready := true, initPort := .passed, inputs := rest }

/-- The model refuses an image with no entry (log 13). -/
def Obligations.EmptyRomImageIsRefused : Prop :=
  ∀ (s : State) rest, s.initPort = .pending → s.inputs = .initialise [] :: rest → step s = .refused .emptyRomImage

/-- R265: a failed check is reported at the port, and the block is never ready afterwards and serves no decode. -/
def Obligations.FailedCheckLeavesTheBlockUnready : Prop :=
  (∀ (s : State) image rest e, s.initPort = .pending → s.inputs = .initialise image :: rest →
    checkImage s.params.mnemonics image = some e → step s = .next { s with initPort := .failed e, inputs := rest }) ∧
  (∀ (s t : State) e, s.initPort = .failed e → s.ready = false → step s = .next t → t.initPort = .failed e ∧ t.ready = false) ∧
  (∀ (s : State) (i : Instr) t, s.ready = false → exec i s ≠ .next t)

/-- R262, R23: initialisation happens once, and afterwards no step writes a ROM. That a second initialisation is the fault
secondInitialisation is log 7 (DEDUCED). -/
def Obligations.InitialisationHappensOnce : Prop :=
  (∀ (s : State) image rest, s.initPort ≠ .pending → s.inputs = .initialise image :: rest →
    step s = .fault .secondInitialisation) ∧
  (∀ (s t : State), s.initPort ≠ .pending → step s = .next t →
    t.fmtRom = s.fmtRom ∧ t.regRom = s.regRom ∧ t.eaRom = s.eaRom ∧ t.initPort = s.initPort ∧ t.ready = s.ready)

/-- R120, R190, R260: no decode or stream request is admitted while `ready` is false. That such a request is the fault
requestBeforeReady is log 7 (DEDUCED). -/
def Obligations.NoRequestBeforeReady : Prop :=
  ∀ (s : State), s.ready = false →
    (∀ buf offset rest, s.inputs = .decodeRequest buf offset :: rest → step s = .fault .requestBeforeReady) ∧
    (∀ buf rest, s.inputs = .streamRequest buf :: rest → step s = .fault .requestBeforeReady)

/-! ### The meanings -/

/-- R150: what MOV register/memory to or from register decodes to, for every form and both requesters. -/
def Obligations.MovRegisterMemoryCompletes : Prop :=
  ∀ (d w : Bool) (reg : BitVec 3) (s : State),
    let R : RegName := regName s.regRom w reg
    let value (rmOp : Operand) : Decoded :=
      { mnem := .mov, op0 := if d then .reg R else rmOp, op1 := if d then rmOp else .reg R, w := w }
    (∀ rm, CompletesWith (.movRmReg d w reg (.register rm)) s (value (.reg (regName s.regRom w rm))) 2) ∧
    (∀ addr, CompletesWith (.movRmReg d w reg (.direct addr)) s (value (.mem (.direct addr))) 4) ∧
    (∀ rm, CompletesWith (.movRmReg d w reg (.based rm)) s (value (.mem (.based (eaBases s.eaRom rm) none))) 2) ∧
    (∀ rm b, CompletesWith (.movRmReg d w reg (.based8 rm b)) s
      (value (.mem (.based (eaBases s.eaRom rm) (some { value := b.toInt, width := .w8 })))) 3) ∧
    (∀ rm v, CompletesWith (.movRmReg d w reg (.based16 rm v)) s
      (value (.mem (.based (eaBases s.eaRom rm) (some { value := v.toInt, width := .w16 })))) 4)

/-- R151: what MOV immediate to register decodes to. -/
def Obligations.MovImmediateRegisterCompletes : Prop :=
  ∀ (reg : BitVec 3) (s : State),
    (∀ b : Byte, CompletesWith (.movImmReg false reg (.imm8 b)) s
      { mnem := .mov, op0 := .reg (regName s.regRom false reg), op1 := .imm b.toInt, w := false } 2) ∧
    (∀ v : Half, CompletesWith (.movImmReg true reg (.imm16 v)) s
      { mnem := .mov, op0 := .reg (regName s.regRom true reg), op1 := .imm v.toInt, w := true } 3)

/-- R152: what MOV immediate to register/memory decodes to, for every form of the destination. -/
def Obligations.MovImmediateMemoryCompletes : Prop :=
  ∀ (rm : RmField) (s : State),
    (∀ b : Byte, CompletesWith (.movImmRm false rm (.imm8 b)) s
      { mnem := .mov, op0 := rmValue s.regRom s.eaRom false rm, op1 := .imm b.toInt, w := false } (2 + rmBytesCount rm + 1)) ∧
    (∀ v : Half, CompletesWith (.movImmRm true rm (.imm16 v)) s
      { mnem := .mov, op0 := rmValue s.regRom s.eaRom true rm, op1 := .imm v.toInt, w := true } (2 + rmBytesCount rm + 2))

/-- R170: what ADD register/memory with register decodes to, for every form and both requesters. -/
def Obligations.AddRegisterMemoryCompletes : Prop :=
  ∀ (d w : Bool) (reg : BitVec 3) (s : State),
    let R : RegName := regName s.regRom w reg
    let value (rmOp : Operand) : Decoded :=
      { mnem := .add, op0 := if d then .reg R else rmOp, op1 := if d then rmOp else .reg R, w := w }
    (∀ rm, CompletesWith (.addRmReg d w reg (.register rm)) s (value (.reg (regName s.regRom w rm))) 2) ∧
    (∀ addr, CompletesWith (.addRmReg d w reg (.direct addr)) s (value (.mem (.direct addr))) 4) ∧
    (∀ rm, CompletesWith (.addRmReg d w reg (.based rm)) s (value (.mem (.based (eaBases s.eaRom rm) none))) 2) ∧
    (∀ rm b, CompletesWith (.addRmReg d w reg (.based8 rm b)) s
      (value (.mem (.based (eaBases s.eaRom rm) (some { value := b.toInt, width := .w8 })))) 3) ∧
    (∀ rm v, CompletesWith (.addRmReg d w reg (.based16 rm v)) s
      (value (.mem (.based (eaBases s.eaRom rm) (some { value := v.toInt, width := .w16 })))) 4)

/-- R171: what ADD immediate to register/memory decodes to: one byte for W = 0 and, sign-extended, for S = W = 1; two
bytes for W = 1, S = 0. -/
def Obligations.AddImmediateMemoryCompletes : Prop :=
  ∀ (rm : RmField) (s : State),
    (∀ (sx : Bool) (b : Byte), CompletesWith (.addImmRm sx false rm (.imm8 b)) s
      { mnem := .add, op0 := rmValue s.regRom s.eaRom false rm, op1 := .imm b.toInt, w := false } (2 + rmBytesCount rm + 1)) ∧
    (∀ b : Byte, CompletesWith (.addImmRm true true rm (.imm8 b)) s
      { mnem := .add, op0 := rmValue s.regRom s.eaRom true rm, op1 := .imm b.toInt, w := true } (2 + rmBytesCount rm + 1)) ∧
    (∀ v : Half, CompletesWith (.addImmRm false true rm (.imm16 v)) s
      { mnem := .add, op0 := rmValue s.regRom s.eaRom true rm, op1 := .imm v.toInt, w := true } (2 + rmBytesCount rm + 2))

/-- The frame of all five formats: an instruction that completes leaves the ROMs, the parameters, `ready`, the
initialisation port and every byte of every buffer as they were, and takes one host action from the queue; for a stream it
changes only that stream's offset and output, for a decode request only the responses (R23, R35, R36). -/
def Obligations.MeaningsLeaveTheRestUnchanged : Prop :=
  ∀ (i : Instr) (s t : State), exec i s = .next t →
    t.params = s.params ∧ t.fmtRom = s.fmtRom ∧ t.regRom = s.regRom ∧ t.eaRom = s.eaRom ∧ t.ready = s.ready ∧
    t.initPort = s.initPort ∧ t.turn = s.turn ∧ t.latches = none ∧ t.streams.length = s.streams.length ∧
    (∀ k c, s.streams[k]? = some c → ∃ c', t.streams[k]? = some c' ∧ c'.buf.len = c.buf.len ∧
      (∀ a, c'.buf.byte a = c.buf.byte a) ∧ c'.phase = c.phase ∧ c'.abandoned = c.abandoned ∧ (k ≠ s.turn → c' = c)) ∧
    ((s.inputs = .take :: t.inputs ∧ t.responses = s.responses) ∨
      ((∃ buf off, s.inputs = .decodeRequest buf off :: t.inputs) ∧ t.streams = s.streams ∧ ∃ r, t.responses = s.responses ++ [r]))

/-- R100: the operand-width bits are `v mod 2^(8*(w+1))`: the byte, the byte sign-extended to 16 bits, or the two bytes
(R98). -/
def Obligations.ImmediateBitsAreRecoverable : Prop :=
  (∀ b : Byte, ∃ v : Int, immOperand false (.imm8 b) = .imm v ∧ v % 2 ^ 8 = (b.toNat : Int)) ∧
  (∀ b : Byte, ∃ v : Int, immOperand true (.imm8 b) = .imm v ∧
    v % 2 ^ 16 = if b.getLsbD 7 then 0xFF00 + (b.toNat : Int) else (b.toNat : Int)) ∧
  (∀ v16 : Half, ∃ v : Int, immOperand true (.imm16 v16) = .imm v ∧ v % 2 ^ 16 = (v16.toNat : Int))

/-! ### The step -/

/-- When the bytes at the offset of the decode in progress decode to an instruction of the default image, the step is that
instruction's meaning; when the decoder rejects them, it is the error response (R130, R191; admission by length is log
10). -/
def Obligations.StepRunsTheDecodedInstruction : Prop :=
  ∀ (s : State), s.fmtRom = defaultImage →
    (∀ c rest, StreamServes s c rest →
      (∀ i more, Decode.decode (fetchBytes c.buf c.offset) = .ok (i, more) → step s = exec i s) ∧
      (∀ r, Decode.decode (fetchBytes c.buf c.offset) = .error r →
        step s = respondError s (rejectError c.buf.len c.offset r))) ∧
    (∀ buf offset more, PortServes s buf offset more → buf.len < 2 ^ s.params.offsetBits →
      (∀ i rest, Decode.decode (fetchBytes buf offset) = .ok (i, rest) → step s = exec i s) ∧
      (∀ r, Decode.decode (fetchBytes buf offset) = .error r → step s = respondError s (rejectError buf.len offset r)))

/-- `withFetchWord` (log 2) makes the next step run the instruction that `decodeTableWord` reads, from every state. -/
def Obligations.FetchWordRunsTheTableWord : Prop :=
  ∀ (s : State) (nbits w : Nat) (i : Instr), decodeTableWord nbits w = some i →
    step (s.withFetchWord nbits w) = exec i (s.withFetchWord nbits w)

/-- For the default image, the general algorithm R130 and the per-format decoder give the same response: the same value
and length, or the same error with the same fields (41_mov and 42_add: each rule is R130 applied to one entry). -/
def Obligations.GeneralDecodeAgreesWithFormats : Prop :=
  ∀ regs ea (buf : Buffer) off,
    Engine.decode defaultImage regs ea buf off =
      match Decode.decode (fetchBytes buf off) with
      | .ok (i, _) => .ok (decodedValue regs ea i) i.length
      | .error r   => .err (rejectError buf.len off r)

/-- R191: a step of the sequencer on a running stream does exactly one of three things, for any ROM image. -/
def Obligations.SequencerStepDoesOneOfThree : Prop :=
  ∀ (s : State) (c : StreamCtx) (rest : List HostInput), s.ready = true → s.inputs = .take :: rest →
    s.streams[s.turn]? = some c → c.phase = .running → c.abandoned = false →
    (c.offset = c.buf.len →
      step s = .next { s with inputs := rest, streams := s.streams.set s.turn { c with phase := .endedAtEnd } }) ∧
    (c.offset ≠ c.buf.len → ∀ v n, Engine.decode s.fmtRom s.regRom s.eaRom c.buf c.offset = .ok v n →
      step s = .next (lineEmitted s c rest v n)) ∧
    (c.offset ≠ c.buf.len → ∀ e, Engine.decode s.fmtRom s.regRom s.eaRom c.buf c.offset = .err e →
      step s = .next (errorEmitted s c rest e))

/-- R31, R30: an admitted decode request gets exactly one response, that of the general algorithm at its offset, and
nothing but the queue and the responses changes. (Admission by length is log 10.) -/
def Obligations.DecodeRequestGetsOneResponse : Prop :=
  ∀ (s : State) (buf : Buffer) (offset : Nat) (rest : List HostInput), PortServes s buf offset rest →
    buf.len < 2 ^ s.params.offsetBits →
      step s = .next (answered s rest (Engine.decode s.fmtRom s.regRom s.eaRom buf offset))

/-- R190: a stream request opens a running context at offset 0 (that the sequencer serves it next is log 5; admission by
length is log 10). -/
def Obligations.StreamRequestStartsAtZero : Prop :=
  ∀ (s : State) (buf : Buffer) (rest : List HostInput), s.ready = true → s.inputs = .streamRequest buf :: rest →
    buf.len < 2 ^ s.params.offsetBits →
      step s = .next { s with
        streams := s.streams ++ [{ buf := buf, offset := 0, phase := .running, out := [], abandoned := false }],
        turn := s.streams.length, inputs := rest }

/-- A request whose buffer an implementation could not address is refused (R10, R26; log 10). -/
def Obligations.TooLongBufferIsRefused : Prop :=
  ∀ (s : State) (buf : Buffer), s.ready = true → 2 ^ s.params.offsetBits ≤ buf.len →
    (∀ offset rest, s.inputs = .decodeRequest buf offset :: rest → step s = .refused .bufferTooLong) ∧
    (∀ rest, s.inputs = .streamRequest buf :: rest → step s = .refused .bufferTooLong)

/-- R195: with `len = 0` the first step ends the stream with no element. -/
def Obligations.EmptyBufferEndsAtOnce : Prop :=
  ∀ (s : State) (buf : Buffer) (rest : List HostInput), s.inputs = .take :: rest → buf.len = 0 →
    s.streams[s.turn]? = some { buf := buf, offset := 0, phase := .running, out := [], abandoned := false } →
      step s = .next { s with
        inputs := rest,
        streams := s.streams.set s.turn { buf := buf, offset := 0, phase := .endedAtEnd, out := [], abandoned := false } }

/-- R192, R238: a stream that ended by an error emits nothing more, moves no further, and is never resumed, whatever step
the block takes. -/
def Obligations.ErrorEndsTheStreamForGood : Prop :=
  (∀ (s t : State) (k : Nat) (c : StreamCtx), s.streams[k]? = some c → c.phase = .endedByError → step s = .next t →
    ∃ c', t.streams[k]? = some c' ∧ c'.phase = .endedByError ∧ c'.out = c.out ∧ c'.offset = c.offset) ∧
  (∀ (s : State) (k : Nat) (c : StreamCtx) rest, s.streams[k]? = some c → c.phase = .endedByError → s.inputs = .resume k :: rest →
    step s = .refused .resumeAfterError) ∧
  (∀ (s : State) (c : StreamCtx) rest, s.streams[s.turn]? = some c → c.phase = .endedByError → s.inputs = .take :: rest →
    step s = .refused .resumeAfterError)

/-- R196: the host goes on taking elements from a stream that has not ended by an error and is not abandoned; only the
stream selected changes (log 5). -/
def Obligations.ResumeSelectsTheStream : Prop :=
  ∀ (s : State) (k : Nat) (c : StreamCtx) rest, s.inputs = .resume k :: rest → s.streams[k]? = some c →
    c.phase ≠ .endedByError → c.abandoned = false → step s = .next { s with turn := k, inputs := rest }

/-- R196: elements come out one at a time and only as the host takes them: a step in which the host takes none leaves the
elements, the offset and the state of every stream as they were, and a step in which it takes one adds at most one element,
to the stream selected, whose offset does not fall. -/
def Obligations.ElementsComeOutOnlyAsTaken : Prop :=
  ∀ (s t : State) (k : Nat) (c : StreamCtx), step s = .next t → s.streams[k]? = some c →
    ∃ c', t.streams[k]? = some c' ∧
      ((∀ rest, s.inputs ≠ .take :: rest) ∨ k ≠ s.turn → c'.out = c.out ∧ c'.offset = c.offset ∧ c'.phase = c.phase) ∧
      c.offset ≤ c'.offset ∧ (c'.out = c.out ∨ ∃ e, c'.out = c.out ++ [e])

/-- R196: the host may stop taking elements: the stream is abandoned, with no other effect. Whatever step the block takes
then, an abandoned stream stays abandoned, emits nothing and moves no further; and its buffer is the host's to change
(log 24). -/
def Obligations.AbandonedStreamStaysAsItIs : Prop :=
  (∀ (s : State) (k : Nat) (c : StreamCtx) rest, s.inputs = .abandon k :: rest → s.streams[k]? = some c →
    step s = .next { s with streams := s.streams.set k { c with abandoned := true }, inputs := rest }) ∧
  (∀ (s t : State) (k : Nat) (c : StreamCtx), s.streams[k]? = some c → c.abandoned = true → step s = .next t →
    ∃ c', t.streams[k]? = some c' ∧ c'.abandoned = true ∧ c'.out = c.out ∧ c'.offset = c.offset ∧ c'.phase = c.phase) ∧
  (∀ (s : State) (k i : Nat) (b : Byte) (c : StreamCtx) rest, s.inputs = .changeByte k i b :: rest → s.streams[k]? = some c →
    c.abandoned = true → i < c.buf.len → ∃ t, step s = .next t)

/-- R247: with nothing from the host pending, the block holds its state (log 6). -/
def Obligations.IdleBlockHoldsItsState : Prop :=
  ∀ (s : State), s.inputs = [] → step s = .next s

/-- R57, R63: a change of a byte while its stream runs is refused; once the stream has ended or was abandoned it is the
host's own affair, and only that byte changes (log 9). -/
def Obligations.BufferChangeOnlyOutsideAStream : Prop :=
  ∀ (s : State) k i b c rest, s.inputs = .changeByte k i b :: rest → s.streams[k]? = some c → c.buf.wf = true →
    i < c.buf.len →
      (c.phase = .running → c.abandoned = false → c.buf.byte i ≠ b → step s = .refused .bufferChangedDuringStream) ∧
      (c.phase ≠ .running ∨ c.abandoned = true → ∃ buf' : Buffer,
        step s = .next { s with streams := s.streams.set k { c with buf := buf' }, inputs := rest } ∧
        buf'.byte i = b ∧ (∀ j, j ≠ i → buf'.byte j = c.buf.byte j) ∧ buf'.len = c.buf.len ∧ buf'.wf = true)

/-- R35, R55: the block has no write port: only the host's own action changes a buffer of a stream. -/
def Obligations.BlockNeverWritesABuffer : Prop :=
  ∀ (s t : State) (k : Nat) (c : StreamCtx), step s = .next t → (∀ j i b rest, s.inputs ≠ .changeByte j i b :: rest) →
    s.streams[k]? = some c → ∃ c', t.streams[k]? = some c' ∧ c'.buf = c.buf

/-! ### Whole-machine rules -/

/-- Every step keeps the invariant: the ROMs, the loaded image checked, the latches empty, every stream within its buffer,
its elements end to end from 0 to its offset, an error only last (R22, R23, R27, R192, R194), and every buffer canonical. -/
def Obligations.StepKeepsInvariant : Prop :=
  ∀ (s t : State), Inv s → step s = .next t → Inv t

/-- R193: every stream ends after at most `len + 1` steps, with at most `len` lines and at most one error, the last
element. -/
def Obligations.EveryStreamTerminates : Prop :=
  ∀ (s : State) (buf : Buffer) (rest : List HostInput), s.ready = true →
    s.inputs = List.replicate (buf.len + 1) .take ++ rest →
    s.streams[s.turn]? = some { buf := buf, offset := 0, phase := .running, out := [], abandoned := false } →
      ∃ k t c, k ≤ buf.len + 1 ∧ Host.Core.run Sys2Proof.core k s = .next t ∧ t.streams[s.turn]? = some c ∧ c.buf = buf ∧
        c.phase ≠ .running ∧ (c.out.filter fun e => !Element.isError e).length ≤ buf.len ∧
        (c.out.filter Element.isError).length ≤ 1 ∧
        ∀ e ∈ c.out, Element.isError e = true → c.out.getLast? = some e

/-- R198, R36: what a step does to the stream it serves depends on that stream and the ROMs alone, and it leaves every
other stream as it was. -/
def Obligations.StreamsAreIndependent : Prop :=
  ∀ (s₁ s₂ : State) (c : StreamCtx) (rest₁ rest₂ : List HostInput), s₁.ready = true → s₂.ready = true →
    s₁.inputs = .take :: rest₁ → s₂.inputs = .take :: rest₂ →
    s₁.fmtRom = s₂.fmtRom → s₁.regRom = s₂.regRom → s₁.eaRom = s₂.eaRom →
    s₁.streams[s₁.turn]? = some c → s₂.streams[s₂.turn]? = some c → c.phase ≠ .endedByError → c.abandoned = false →
      ∃ t₁ t₂ c', step s₁ = .next t₁ ∧ step s₂ = .next t₂ ∧ t₁.streams[s₁.turn]? = some c' ∧ t₂.streams[s₂.turn]? = some c' ∧
        (∀ k, k ≠ s₁.turn → t₁.streams[k]? = s₁.streams[k]?) ∧ (∀ k, k ≠ s₂.turn → t₂.streams[k]? = s₂.streams[k]?)

/-- R198: streams run interleaved in any order, each giving what it would give alone. The host takes elements from the
streams of the list `ks` in turn: after a run that answers, each stream has moved by as many of its own steps as the list
names it; and any other order of the same list answers too, with the same streams. -/
def Obligations.InterleavedStreamsRunAsAlone : Prop :=
  (∀ (s t : State) (ks : List Nat) (rest : List HostInput), s.ready = true → s.inputs = takes ks ++ rest →
    Host.Core.run Sys2Proof.core (2 * ks.length) s = .next t →
      t.inputs = rest ∧ t.responses = s.responses ∧ t.streams.length = s.streams.length ∧
      ∀ k c, s.streams[k]? = some c → t.streams[k]? = some ((advance s)^[ks.count k] c)) ∧
  (∀ (s t : State) (ks ks' : List Nat) (rest : List HostInput), s.ready = true → s.inputs = takes ks ++ rest →
    Host.Core.run Sys2Proof.core (2 * ks.length) s = .next t → ks'.Perm ks →
      ∃ t', Host.Core.run Sys2Proof.core (2 * ks'.length) { s with inputs := takes ks' ++ rest } = .next t' ∧
        t'.streams = t.streams)

/-- R132: the response depends on the bytes from the offset to the sixth or the end of the buffer only; and a success
depends on the bytes of the instruction only, whatever comes after them; no earlier request affects it: two states with the
same ROMs answer the same request alike. -/
def Obligations.ResponseDependsOnTheInstructionBytes : Prop :=
  (∀ fmt regs ea (buf buf' : Buffer) off, buf'.len = buf.len →
    (∀ i, off ≤ i → i < min buf.len (off + 6) → buf'.byte i = buf.byte i) →
      Engine.decode fmt regs ea buf' off = Engine.decode fmt regs ea buf off) ∧
  (∀ fmt regs ea (buf buf' : Buffer) off v n, Engine.decode fmt regs ea buf off = .ok v n → off + n ≤ buf'.len →
    (∀ i, off ≤ i → i < off + n → buf'.byte i = buf.byte i) → Engine.decode fmt regs ea buf' off = .ok v n) ∧
  (∀ (s₁ s₂ : State) buf off rest₁ rest₂, PortServes s₁ buf off rest₁ → PortServes s₂ buf off rest₂ →
    buf.len < 2 ^ s₁.params.offsetBits → buf.len < 2 ^ s₂.params.offsetBits →
    s₁.fmtRom = s₂.fmtRom → s₁.regRom = s₂.regRom → s₁.eaRom = s₂.eaRom →
      ∃ t₁ t₂ r, step s₁ = .next t₁ ∧ step s₂ = .next t₂ ∧ t₁.responses = s₁.responses ++ [r] ∧
        t₂.responses = s₂.responses ++ [r])

/-- R131, R30: a success consumes between one and six bytes, all in the buffer, for any image. R133, R83: for a checked
entry whose ModRM byte comes with the role RM the consumed length is the format's; an entry with a ModRM byte and no role RM
reads no displacement, and its length is the format's without one (log 16). -/
def Obligations.ConsumedIsTheFormatLength : Prop :=
  (∀ fmt regs ea (buf : Buffer) off v n, Engine.decode fmt regs ea buf off = .ok v n →
    1 ≤ n ∧ n ≤ 6 ∧ off + n ≤ buf.len) ∧
  (∀ fmt regs ea (buf : Buffer) off v n k F mnemonics, Engine.decode fmt regs ea buf off = .ok v n →
    matchEntry 0 fmt (buf.byte off) = some (k, F) → checkEntry mnemonics F = none →
      ((F.modrm = true → hasRole F .rm = true) → n = Engine.formatLength F (buf.byte off) (buf.byte (off + 1))) ∧
      (F.modrm = true → hasRole F .rm = false → n = 2 + Engine.immLength F (buf.byte off)))

/-- R70, R51: for every checked image, an instruction is read by its layout, the displacement and then the immediate, where
the entry its first byte selects has the role RM with its ModRM byte and not the roles (IMM, RM), and for any other entry
where the ModRM byte gives no displacement byte (the rest: logs 16 and 18). -/
def Obligations.FieldsComeInLayoutOrder : Prop :=
  ∀ mnemonics fmt regs ea (buf : Buffer) off, checkImage mnemonics fmt = none →
    (∀ k F, matchEntry 0 fmt (buf.byte off) = some (k, F) →
      ((F.modrm = true → hasRole F .rm = true) ∧ F.roles ≠ (.imm, .rm)) ∨ Engine.dispLength (buf.byte (off + 1)) = 0) →
      Engine.decode fmt regs ea buf off = layoutListing fmt regs ea buf off

/-- R130, R127: the decode is the listing of R130, for every image: the roles are resolved in declaration order, an
immediate before a displacement too where the roles are (IMM, RM) (log 18), and no role RM reads no displacement (log 16). -/
def Obligations.DecodeIsTheListing : Prop :=
  ∀ fmt regs ea (buf : Buffer) off, Engine.decode fmt regs ea buf off = listing fmt regs ea buf off

/-- R135: whichever way the block takes, it answers an admitted request with the response of the listing of R130, error
fields included; and what it reads ahead lies below `len`. -/
def Obligations.ReadingAheadChangesNoResponse : Prop :=
  (∀ (s : State) (buf : Buffer) off rest, PortServes s buf off rest → buf.len < 2 ^ s.params.offsetBits →
    step s = .next (answered s rest (listing s.fmtRom s.regRom s.eaRom buf off))) ∧
  (∀ (s : State) (c : StreamCtx) rest, StreamServes s c rest →
    match listing s.fmtRom s.regRom s.eaRom c.buf c.offset with
    | .ok v n => step s = .next (lineEmitted s c rest v n)
    | .err e  => step s = .next (errorEmitted s c rest e)) ∧
  (∀ (buf : Buffer) off, fetchBytes buf off = (List.range (min 6 (buf.len - off))).map fun k => buf.byte (off + k))

/-- R232: when a read is a truncation, and what it records. -/
def Obligations.TruncationRecordsThreeFields : Prop :=
  (∀ (buf : Buffer) start cur, Engine.readByte buf start cur =
    if cur + 1 > buf.len then
      .error { code := .truncatedInstruction, offset := start,
               bytesAvailable := if start > buf.len then 0 else buf.len - start, bytesRequired := cur + 1 - start }
    else .ok (buf.byte cur, cur + 1)) ∧
  (∀ (buf : Buffer) start cur, Engine.readHalf buf start cur =
    if cur + 2 > buf.len then
      .error { code := .truncatedInstruction, offset := start,
               bytesAvailable := if start > buf.len then 0 else buf.len - start, bytesRequired := cur + 2 - start }
    else .ok (buf.byte (cur + 1) ++ buf.byte cur, cur + 2)) ∧
  (∀ fmt regs ea (buf : Buffer) off e, Engine.decode fmt regs ea buf off = .err e → e.code = .truncatedInstruction →
    e.offset = off ∧ e.bytesAvailable = (if off > buf.len then 0 else buf.len - off) ∧ e.bytesAvailable < e.bytesRequired) ∧
  (∀ fmt regs ea (buf : Buffer) off, buf.len ≤ off → Engine.decode fmt regs ea buf off =
    .err { code := .truncatedInstruction, offset := off, bytesAvailable := 0, bytesRequired := 1 })

/-- R126 with R121: UnknownOpcode has two causes, no matching entry or a differing opcode extension, checked as soon as
the ModRM byte is there; it records the start offset only. -/
def Obligations.UnknownOpcodeHasTwoCauses : Prop :=
  ∀ fmt regs ea (buf : Buffer) off, (∀ F ∈ fmt, F.ext ≠ none → F.modrm = true) →
    ((∃ e, Engine.decode fmt regs ea buf off = .err e ∧ e.code = .unknownOpcode) ↔
      off < buf.len ∧
        (matchEntry 0 fmt (buf.byte off) = none ∨
          ∃ k F x, matchEntry 0 fmt (buf.byte off) = some (k, F) ∧ F.ext = some x ∧ off + 1 < buf.len ∧
            extract (buf.byte (off + 1)) 3 3 ≠ x)) ∧
    (∀ e, Engine.decode fmt regs ea buf off = .err e → e.code = .unknownOpcode →
      e = { code := .unknownOpcode, offset := off, bytesAvailable := 0, bytesRequired := 0 })

/-- R235: a decode with the default image reports the first check that fails, in this order, and succeeds otherwise. -/
def Obligations.FirstFailedCheckIsReported : Prop :=
  ∀ regs ea (buf : Buffer) off,
    let r := Engine.decode defaultImage regs ea buf off
    let b0 := buf.byte off
    let m := buf.byte (off + 1)
    let trunc (required : Nat) : Response :=
      .err { code := .truncatedInstruction, offset := off, bytesAvailable := buf.len - off, bytesRequired := required }
    let unknown : Response := .err { code := .unknownOpcode, offset := off, bytesAvailable := 0, bytesRequired := 0 }
    if buf.len ≤ off then r = trunc 1
    else
      match Decode.rowOfByte b0 with
      | none => r = unknown
      | some row =>
        let F := rowEntry row
        let before := if F.modrm then 2 + Engine.dispLength m else 1
        if F.modrm = true ∧ buf.len ≤ off + 1 then r = trunc 2
        else if F.ext = some 0#3 ∧ extract m 3 3 ≠ 0#3 then r = unknown
        else if buf.len < off + before then r = trunc before
        else if buf.len < off + before + Engine.immLength F b0 then r = trunc (before + Engine.immLength F b0)
        else ∃ v, r = .ok v (before + Engine.immLength F b0)

/-- R105: of the default image only `ADD_IMM_RM` has an S extractor, at bit 1; and first byte 0x82 (S = 1, W = 0) decodes
exactly like 0x80 (S = 0), at any offset. -/
def Obligations.SignBitChangesNoByteOperand : Prop :=
  (∀ F ∈ defaultImage, ∀ p, F.s = some p ↔ F = rowEntry .addImmRm ∧ p = 1) ∧
  (∀ regs ea (buf buf' : Buffer) off, buf'.len = buf.len → buf.byte off = 0x80#8 → buf'.byte off = 0x82#8 →
    (∀ i, off < i → buf'.byte i = buf.byte i) →
      Engine.decode defaultImage regs ea buf' off = Engine.decode defaultImage regs ea buf off)

/-! ### The reference renderer -/

/-- R207: the numeral reads back as the number, has no leading zero, and `0` is "0"; a negative number has a leading `-`. -/
def Obligations.NumeralsReadBack : Prop :=
  (∀ n : Nat, (Renderer.decimal n).foldl (fun acc ch => 10 * acc + (ch.toNat - 48)) 0 = n ∧
    (∀ ch ∈ Renderer.decimal n, 48 ≤ ch.toNat ∧ ch.toNat ≤ 57) ∧ (n ≠ 0 → (Renderer.decimal n).head? ≠ some '0')) ∧
  Renderer.operandText (.imm 0) = ['0'] ∧
  (∀ n : Nat, Renderer.operandText (.imm n) = Renderer.decimal n) ∧
  (∀ n : Nat, 0 < n → Renderer.operandText (.imm (-(n : Int))) = '-' :: Renderer.decimal n)

/-- R211: the text carries no size keyword, so it is the same for either width. -/
def Obligations.TextDoesNotTellTheWidth : Prop :=
  (∀ (i : Decoded) (w : Bool), Renderer.render { i with w := w } = Renderer.render i) ∧
  (∃ v₁ v₂,
    Engine.decode defaultImage defaultRegRom defaultEaRom (Buffer.ofBytes [0xc6, 0x03, 0x07]) 0 = .ok v₁ 3 ∧
    Engine.decode defaultImage defaultRegRom defaultEaRom (Buffer.ofBytes [0xc7, 0x03, 0x07, 0x00]) 0 = .ok v₂ 4 ∧
    v₁.w = false ∧ v₂.w = true ∧
    Renderer.render v₁ = "mov [bp+di], 7".toList ∧ Renderer.render v₂ = "mov [bp+di], 7".toList)

/-- R208, R209: a direct address renders in brackets; a memory operand of one base or of two, whose names are joined with
`+`, renders with no displacement, with a zero one, with a positive one after `+` and with a negative one after `-`. -/
def Obligations.MemoryOperandText : Prop :=
  (∀ addr : Half, Renderer.operandText (.mem (.direct addr)) = ['['] ++ Renderer.decimal addr.toNat ++ [']']) ∧
  (∀ (bases : List RegName) (names : List Char),
    ((∃ a, bases = [a] ∧ names = Renderer.regText a) ∨
      (∃ a b, bases = [a, b] ∧ names = Renderer.regText a ++ ['+'] ++ Renderer.regText b)) →
      Renderer.operandText (.mem (.based bases none)) = ['['] ++ names ++ [']'] ∧
      ∀ width : DispWidth,
        Renderer.operandText (.mem (.based bases (some { value := 0, width := width }))) = ['['] ++ names ++ [']'] ∧
        ∀ n : Nat, 0 < n →
          Renderer.operandText (.mem (.based bases (some { value := n, width := width }))) =
            ['['] ++ names ++ ['+'] ++ Renderer.decimal n ++ [']'] ∧
          Renderer.operandText (.mem (.based bases (some { value := -(n : Int), width := width }))) =
            ['['] ++ names ++ ['-'] ++ Renderer.decimal n ++ [']'])
end

