-- ==== Sys2Proof/Laws/Bits.lean ====
section
/-! SUPPORT. The bit-field, sign and byte-order helpers in terms of core's bit vectors. -/

namespace Sys2Proof.Laws

open Machine

theorem extract_eq_extractLsb' (b : Byte) (shift width : Nat) : extract b shift width = b.extractLsb' shift width := by
  apply BitVec.eq_of_toNat_eq
  simp [extract]

theorem bit_eq_getLsbD (b : Byte) (i : Nat) : bit b i = b.getLsbD i := by
  rw [bit, extract_eq_extractLsb', BitVec.getLsbD]
  rcases h : b.toNat.testBit i with _ | _
  · simp only [beq_eq_false_iff_ne, ne_eq]
    intro hc
    have := congrArg (·.getLsbD 0) hc
    simp [BitVec.getLsbD, h] at this
  · simp only [beq_iff_eq]
    apply BitVec.eq_of_getLsbD_eq
    intro j hj
    obtain rfl : j = 0 := by omega
    simp [BitVec.getLsbD, h]

theorem signed8_eq_toInt (b : Byte) : signed8 b = b.toInt := by
  simp only [signed8, BitVec.toInt, BitVec.getLsbD, Nat.testBit]
  have := b.isLt
  split <;> split <;> simp_all [Nat.shiftRight_eq_div_pow] <;> omega

theorem signed16_eq_toInt (v : Half) : signed16 v = v.toInt := by
  simp only [signed16, BitVec.toInt, BitVec.getLsbD, Nat.testBit]
  have := v.isLt
  split <;> split <;> simp_all [Nat.shiftRight_eq_div_pow] <;> omega

theorem littleEndian_toNat (lo hi : Byte) : (littleEndian lo hi).toNat = hi.toNat * 256 + lo.toNat := by
  have := lo.isLt
  rw [littleEndian, BitVec.toNat_append, Nat.shiftLeft_eq, ← Nat.shiftLeft_eq, ← Nat.shiftLeft_add_eq_or_of_lt this,
    Nat.shiftLeft_eq]

theorem littleEndian_low_high (v : Half) : littleEndian (lowByte v) (highByte v) = v := by
  apply BitVec.eq_of_toNat_eq
  have := v.isLt
  rw [littleEndian_toNat]
  simp [lowByte, highByte, Nat.shiftRight_eq_div_pow]
  omega

theorem lowByte_littleEndian (lo hi : Byte) : lowByte (littleEndian lo hi) = lo := by
  apply BitVec.eq_of_toNat_eq
  have := lo.isLt
  simp only [lowByte, BitVec.extractLsb'_toNat, littleEndian_toNat]
  simp only [Nat.shiftRight_zero]
  omega

theorem highByte_littleEndian (lo hi : Byte) : highByte (littleEndian lo hi) = hi := by
  apply BitVec.eq_of_toNat_eq
  have := lo.isLt
  have := hi.isLt
  simp only [highByte, BitVec.extractLsb'_toNat, littleEndian_toNat, Nat.shiftRight_eq_div_pow]
  omega

/-- The sign-extended byte has the byte's value (R98, R99). -/
theorem signed16_sext16 (b : Byte) : signed16 (sext16 b) = signed8 b := by
  have : ∀ b : Byte, signed16 (sext16 b) = signed8 b := by decide
  exact this b

theorem sext16_toInt (b : Byte) : (sext16 b).toInt = b.toInt := by
  rw [← signed16_eq_toInt, signed16_sext16, signed8_eq_toInt]

end Sys2Proof.Laws
end

