-- ==== Sys2Proof/Laws/Engine.lean ====
section
/-! SUPPORT. The general decode algorithm: its reads, its bounds, and its agreement with the byte decoder of the default
image. -/

namespace Sys2Proof.Laws

open Machine

theorem readByte_ok {buf : Buffer} {start cur : Nat} (h : cur < buf.len) :
    Engine.readByte buf start cur = .ok (buf.byte cur, cur + 1) := by
  rw [Engine.readByte, if_neg (by omega)]

theorem readByte_error {buf : Buffer} {start cur : Nat} (h : buf.len ≤ cur) :
    Engine.readByte buf start cur = .error (truncated buf.len start cur 1) := by
  rw [Engine.readByte, if_pos (by omega)]

theorem readHalf_ok {buf : Buffer} {start cur : Nat} (h : cur + 1 < buf.len) :
    Engine.readHalf buf start cur = .ok (littleEndian (buf.byte cur) (buf.byte (cur + 1)), cur + 2) := by
  rw [Engine.readHalf, if_neg (by omega)]

theorem readHalf_error {buf : Buffer} {start cur : Nat} (h : buf.len ≤ cur + 1) :
    Engine.readHalf buf start cur = .error (truncated buf.len start cur 2) := by
  rw [Engine.readHalf, if_pos (by omega)]

/-- A read moves the cursor and stays in the buffer (R25, R26). -/
theorem readByte_bound {buf : Buffer} {start cur cur' : Nat} {b : Byte} (h : Engine.readByte buf start cur = .ok (b, cur')) :
    cur' = cur + 1 ∧ cur' ≤ buf.len := by
  unfold Engine.readByte at h
  split at h
  · cases h
  · injection h with h
    injection h
    omega

theorem readHalf_bound {buf : Buffer} {start cur cur' : Nat} {v : Half} (h : Engine.readHalf buf start cur = .ok (v, cur')) :
    cur' = cur + 2 ∧ cur' ≤ buf.len := by
  unfold Engine.readHalf at h
  split at h
  · cases h
  · injection h with h
    injection h
    omega

theorem readRm_bound {buf : Buffer} {start cur cur' : Nat} {mod : BitVec 2} {rm : BitVec 3} {f : RmField}
    (hc : cur ≤ buf.len) (h : Engine.readRm buf start cur mod rm = .ok (f, cur')) :
    cur' = cur + f.dispLen ∧ cur' ≤ buf.len := by
  unfold Engine.readRm at h
  split at h
  · injection h with h; injection h with h1 h2; subst h1 h2; simp [RmField.dispLen, hc]
  · split at h
    · split at h
      · cases h
      · next v c hr =>
        injection h with h; injection h with h1 h2; subst h1 h2
        exact readHalf_bound hr
    · split at h
      · injection h with h; injection h with h1 h2; subst h1 h2; simp [RmField.dispLen, hc]
      · split at h
        · split at h
          · cases h
          · next v c hr =>
            injection h with h; injection h with h1 h2; subst h1 h2
            exact readByte_bound hr
        · split at h
          · cases h
          · next v c hr =>
            injection h with h; injection h with h1 h2; subst h1 h2
            exact readHalf_bound hr

theorem readImm_bound {buf : Buffer} {start cur cur' : Nat} {w s : Bool} {f : ImmField}
    (h : Engine.readImm buf start cur w s = .ok (f, cur')) : cur' = cur + f.len ∧ cur' ≤ buf.len := by
  unfold Engine.readImm at h
  split at h <;> split at h
  · cases h
  · next v c hr => injection h with h; injection h with h1 h2; subst h1 h2; exact readByte_bound hr
  · cases h
  · next v c hr => injection h with h; injection h with h1 h2; subst h1 h2; exact readHalf_bound hr

theorem resolve_bound {regs : RegRom} {ea : EaRom} {buf : Buffer} {L : Latches} {r : Role} {a : Operand} {cur' : Nat}
    (hc : L.cur ≤ buf.len) (h : Engine.resolve regs ea buf L r = .ok (a, cur')) :
    L.cur ≤ cur' ∧ cur' ≤ L.cur + 2 ∧ cur' ≤ buf.len := by
  unfold Engine.resolve at h
  split at h
  · injection h with h; injection h with h1 h2; omega
  · split at h
    · cases h
    · next f c hr =>
      injection h with h; injection h with h1 h2; subst h2
      have := readRm_bound hc hr
      have : f.dispLen ≤ 2 := by cases f <;> simp [RmField.dispLen]
      omega
  · split at h
    · cases h
    · next f c hr =>
      injection h with h; injection h with h1 h2; subst h2
      have := readImm_bound hr
      have : f.len ≤ 2 := by cases f <;> simp [ImmField.len]
      omega

/-- Where the resolver leaves the latches: the start stays, and the cursor moves forward within the buffer. -/
theorem resolveRoles_bound {regs : RegRom} {ea : EaRom} {buf : Buffer} {F : FormatEntry} {L L' : Latches} {a b : Operand}
    (hc : L.cur ≤ buf.len) (h : Engine.resolveRoles regs ea buf F L = .ok (a, b, L')) :
    L'.start = L.start ∧ L.cur ≤ L'.cur ∧ L'.cur ≤ L.cur + 4 ∧ L'.cur ≤ buf.len := by
  unfold Engine.resolveRoles at h
  split at h
  · cases h
  · next a' cur hr =>
    split at h
    · cases h
    · next b' cur' hr' =>
      injection h with h; injection h with h1 h; injection h with h2 h3; subst h3
      have h1 := resolve_bound hc hr
      have h2 := resolve_bound (L := { L with cur := cur, opA := some a' }) h1.2.2 hr'
      simp only at h2
      exact ⟨rfl, show L.cur ≤ cur' by omega, show cur' ≤ L.cur + 4 by omega, h2.2.2⟩

/-- Every success consumes at least one byte and at most six, and stays in the buffer (R30, R131, R133). -/
theorem decode_ok_bound {fmt : List FormatEntry} {regs : RegRom} {ea : EaRom} {buf : Buffer} {offset n : Nat} {v : Decoded}
    (h : Engine.decode fmt regs ea buf offset = .ok v n) : 1 ≤ n ∧ n ≤ 6 ∧ offset + n ≤ buf.len := by
  unfold Engine.decode at h
  split at h
  · cases h
  · next F L hf =>
    have hL : L.start = offset ∧ L.cur = offset + 1 ∧ offset + 1 ≤ buf.len := by
      unfold Engine.fetchOpcode at hf
      split at hf
      · cases hf
      · next b cur hb =>
        have := readByte_bound hb
        split at hf
        · cases hf
        · injection hf with hf; injection hf with h1 h2; subst h2
          exact ⟨rfl, this.1, by omega⟩
    unfold Engine.decodeEntry at h
    split at h
    · cases h
    · next L1 hm =>
      have hL1 : L1.start = offset ∧ offset + 1 ≤ L1.cur ∧ L1.cur ≤ offset + 2 ∧ L1.cur ≤ buf.len := by
        unfold Engine.fetchModRm at hm
        split at hm
        · split at hm
          · cases hm
          · next b cur hb =>
            have := readByte_bound hb
            injection hm with hm; subst hm
            exact ⟨hL.1, by dsimp only; omega, by dsimp only; omega, by dsimp only; omega⟩
        · injection hm with hm; subst hm; omega
      have hreg : (Engine.latchReg F L1).start = L1.start ∧ (Engine.latchReg F L1).cur = L1.cur := by
        unfold Engine.latchReg; split <;> exact ⟨rfl, rfl⟩
      split at h
      · cases h
      · split at h
        · cases h
        · next a b L2 hr =>
          have := resolveRoles_bound (by omega) hr
          simp only [Engine.finish] at h
          injection h with _ h
          omega

/-! ### The byte decoder reads what the engine reads -/

/-- The byte decoder's result `x` and the engine's result `y` for one field, `t` bytes after `off`; `size` is the length
of what was read. -/
def ReadsAlike {α : Type} (buf : Buffer) (off t : Nat) (size : α → Nat) (x : Except Reject (α × List Byte))
    (y : Except DecodeError (α × Nat)) : Prop :=
  match x, y with
  | .ok (a, rest), .ok (b, cur) =>
    a = b ∧ rest = buf.window (off + (t + size a)) (6 - (t + size a)) ∧ cur = off + (t + size a)
  | .error r, .error e => e = rejectError buf.len off r
  | _, _ => False

theorem takeByte_readByte (buf : Buffer) (off t : Nat) (ht : t + 1 ≤ 6) :
    ReadsAlike buf off t (fun _ => 1) (Decode.takeByte t (buf.window (off + t) (6 - t))) (Engine.readByte buf off (off + t)) := by
  obtain ⟨m, hm⟩ : ∃ m, 6 - t = m + 1 := ⟨5 - t, by omega⟩
  rw [hm, Buffer.window]
  by_cases h : off + t < buf.len
  · rw [if_pos h, readByte_ok h]
    refine ⟨rfl, ?_, Nat.add_assoc off t _⟩
    dsimp only
    rw [show 6 - (t + 1) = m by omega, show off + (t + 1) = off + t + 1 by omega]
  · rw [if_neg h, readByte_error (by omega)]
    simp only [Decode.takeByte, ReadsAlike, truncated, rejectError, DecodeError.mk.injEq, true_and]
    omega

theorem takeHalf_readHalf (buf : Buffer) (off t : Nat) (ht : t + 2 ≤ 6) :
    ReadsAlike buf off t (fun _ => 2) (Decode.takeHalf t (buf.window (off + t) (6 - t))) (Engine.readHalf buf off (off + t)) := by
  obtain ⟨m, hm⟩ : ∃ m, 6 - t = m + 2 := ⟨4 - t, by omega⟩
  rw [hm]
  by_cases h : off + t + 1 < buf.len
  · rw [Buffer.window, if_pos (by omega), Buffer.window, if_pos h, readHalf_ok h]
    refine ⟨rfl, ?_, Nat.add_assoc off t _⟩
    dsimp only
    rw [show 6 - (t + 2) = m by omega, show off + (t + 2) = off + t + 1 + 1 by omega]
  · rw [readHalf_error (by omega)]
    have hw : Decode.takeHalf t (buf.window (off + t) (m + 2)) = .error (.truncated (t + 2)) := by
      rw [Buffer.window, Buffer.window, if_neg h]
      split <;> rfl
    rw [hw]
    simp only [ReadsAlike, truncated, rejectError, DecodeError.mk.injEq, true_and]
    omega

theorem takeRm_readRm (buf : Buffer) (off : Nat) (m : Byte) :
    ReadsAlike buf off 2 RmField.dispLen (Decode.takeRm m (buf.window (off + 2) 4))
      (Engine.readRm buf off (off + 2) (extract m 6 2) (extract m 0 3)) := by
  have hb := takeByte_readByte buf off 2 (by omega)
  have hh := takeHalf_readHalf buf off 2 (by omega)
  unfold Decode.takeRm Engine.readRm
  generalize extract m 0 3 = rm
  generalize extract m 6 2 = mod
  have hmod : mod = 0b00#2 ∨ mod = 0b01#2 ∨ mod = 0b10#2 ∨ mod = 0b11#2 := by
    revert mod; decide
  rcases hmod with rfl | rfl | rfl | rfl
  · by_cases hrm : rm = 0b110#3
    · rcases hx : Decode.takeHalf 2 (buf.window (off + 2) 4) with r | ⟨a, rest⟩ <;>
        rcases hy : Engine.readHalf buf off (off + 2) with e | ⟨b, cur⟩ <;>
        simp_all [ReadsAlike, RmField.dispLen]
    · simp [hrm, ReadsAlike, RmField.dispLen]
  · rcases hx : Decode.takeByte 2 (buf.window (off + 2) 4) with r | ⟨a, rest⟩ <;>
      rcases hy : Engine.readByte buf off (off + 2) with e | ⟨b, cur⟩ <;>
      simp_all [ReadsAlike, RmField.dispLen]
  · rcases hx : Decode.takeHalf 2 (buf.window (off + 2) 4) with r | ⟨a, rest⟩ <;>
      rcases hy : Engine.readHalf buf off (off + 2) with e | ⟨b, cur⟩ <;>
      simp_all [ReadsAlike, RmField.dispLen]
  · simp [ReadsAlike, RmField.dispLen]

theorem takeImm_readImm (buf : Buffer) (off t : Nat) (ht : t + 2 ≤ 6) (w s : Bool) :
    ReadsAlike buf off t ImmField.len (Decode.takeImm t w s (buf.window (off + t) (6 - t)))
      (Engine.readImm buf off (off + t) w s) := by
  have hb := takeByte_readByte buf off t (by omega)
  have hh := takeHalf_readHalf buf off t ht
  unfold Decode.takeImm Engine.readImm
  split
  · rcases hx : Decode.takeByte t (buf.window (off + t) (6 - t)) with r | ⟨a, rest⟩ <;>
      rcases hy : Engine.readByte buf off (off + t) with e | ⟨b, cur⟩ <;>
      simp_all [ReadsAlike, ImmField.len]
  · rcases hx : Decode.takeHalf t (buf.window (off + t) (6 - t)) with r | ⟨a, rest⟩ <;>
      rcases hy : Engine.readHalf buf off (off + t) with e | ⟨b, cur⟩ <;>
      simp_all [ReadsAlike, ImmField.len]

end Sys2Proof.Laws
end

