-- ==== Sys2Proof/Laws/EngineForm.lean ====
section
/-! SUPPORT. The general decode algorithm without its latches: the form that later proofs take apart. -/

namespace Sys2Proof.Laws

open Machine

/-- `resolve(role)` of R127 on the values it reads. -/
def resolveAt (regs : RegRom) (ea : EaRom) (buf : Buffer) (off : Nat) (w s : Bool) (reg : BitVec 3) (mod : BitVec 2)
    (rm : BitVec 3) (cur : Nat) : Role → Except DecodeError (Operand × Nat)
  | .reg => .ok (regOperand regs w reg, cur)
  | .rm =>
    match Engine.readRm buf off cur mod rm with
    | .error e => .error e
    | .ok (f, cur) => .ok (rmOperand regs ea w f, cur)
  | .imm =>
    match Engine.readImm buf off cur w s with
    | .error e => .error e
    | .ok (f, cur) => .ok (immOperand w f, cur)

/-- Steps 4 to 6 (R127 to R129) from the cursor `cur`, with `m` for the ModRM byte (0 where the format has none). -/
def rolesAt (regs : RegRom) (ea : EaRom) (buf : Buffer) (F : FormatEntry) (off cur : Nat) (reg : BitVec 3) (m : Byte) : Response :=
  match resolveAt regs ea buf off (latchFlag F.w (buf.byte off)) (latchFlag F.s (buf.byte off)) reg
      (extract m 6 2) (extract m 0 3) cur F.roles.1 with
  | .error e => .err e
  | .ok (a, cur1) =>
    match resolveAt regs ea buf off (latchFlag F.w (buf.byte off)) (latchFlag F.s (buf.byte off)) reg
        (extract m 6 2) (extract m 0 3) cur1 F.roles.2 with
    | .error e => .err e
    | .ok (b, cur2) =>
      .ok { mnem := F.mnem, op0 := (direction F.d F.roles (latchFlag F.d (buf.byte off)) a b).1,
            op1 := (direction F.d F.roles (latchFlag F.d (buf.byte off)) a b).2, w := latchFlag F.w (buf.byte off) } (cur2 - off)

/-- REG, with 0 for a missing latch. -/
def regAt (F : FormatEntry) (b0 m : Byte) : BitVec 3 :=
  match F.reg with
  | none => 0#3
  | some .modrm => if F.modrm then extract m 3 3 else 0#3
  | some (.byte0 sh) => extract b0 sh 3

/-- The whole decode of an entry (R125 to R129). -/
def entryAt (regs : RegRom) (ea : EaRom) (buf : Buffer) (F : FormatEntry) (off : Nat) : Response :=
  if F.modrm then
    if off + 1 < buf.len then
      if ∃ x, F.ext = some x ∧ extract (buf.byte (off + 1)) 3 3 ≠ x then .err (unknownOpcode off)
      else rolesAt regs ea buf F off (off + 2) (regAt F (buf.byte off) (buf.byte (off + 1))) (buf.byte (off + 1))
    else .err (truncated buf.len off (off + 1) 1)
  else rolesAt regs ea buf F off (off + 1) (regAt F (buf.byte off) 0#8) 0#8

/-- The latches after the first byte selected entry `k` of the format ROM, `F` (R121, R123). -/
def firstLatches (F : FormatEntry) (buf : Buffer) (off k : Nat) : Latches :=
  { start := off, cur := off + 1, byte0 := buf.byte off, k := k,
    d := latchFlag F.d (buf.byte off), w := latchFlag F.w (buf.byte off), s := latchFlag F.s (buf.byte off),
    modrm := none, mod := none, reg := none, rm := none, opA := none, opB := none }

theorem resolve_eq (regs : RegRom) (ea : EaRom) (buf : Buffer) (L : Latches) (r : Role) :
    Engine.resolve regs ea buf L r =
      resolveAt regs ea buf L.start L.w L.s (L.reg.getD 0#3) (L.mod.getD 0#2) (L.rm.getD 0#3) L.cur r := by
  cases r <;> rfl

theorem resolveRoles_finish (regs : RegRom) (ea : EaRom) (buf : Buffer) (F : FormatEntry) (off cur : Nat) (L : Latches)
    (m : Byte) (reg : BitVec 3) (hs : L.start = off) (hc : L.cur = cur) (hd : L.d = latchFlag F.d (buf.byte off))
    (hw : L.w = latchFlag F.w (buf.byte off)) (hS : L.s = latchFlag F.s (buf.byte off)) (hreg : L.reg.getD 0#3 = reg)
    (hmod : L.mod.getD 0#2 = extract m 6 2) (hrm : L.rm.getD 0#3 = extract m 0 3) :
    (match Engine.resolveRoles regs ea buf F L with
      | .error e => Response.err e
      | .ok (a, b, L) => Engine.finish F L a b) = rolesAt regs ea buf F off cur reg m := by
  unfold Engine.resolveRoles rolesAt
  simp only [resolve_eq, hs, hc, hw, hS, hreg, hmod, hrm]
  rcases resolveAt regs ea buf off (latchFlag F.w (buf.byte off)) (latchFlag F.s (buf.byte off)) reg
    (extract m 6 2) (extract m 0 3) cur F.roles.1 with e | ⟨a, cur1⟩
  · rfl
  · dsimp only
    rcases resolveAt regs ea buf off (latchFlag F.w (buf.byte off)) (latchFlag F.s (buf.byte off)) reg
      (extract m 6 2) (extract m 0 3) cur1 F.roles.2 with e | ⟨b, cur2⟩
    · rfl
    · simp only [Engine.finish, hd]

theorem latchReg_fields (F : FormatEntry) (L : Latches) :
    (Engine.latchReg F L).start = L.start ∧ (Engine.latchReg F L).cur = L.cur ∧ (Engine.latchReg F L).d = L.d ∧
      (Engine.latchReg F L).w = L.w ∧ (Engine.latchReg F L).s = L.s ∧ (Engine.latchReg F L).modrm = L.modrm ∧
      (Engine.latchReg F L).mod = L.mod ∧ (Engine.latchReg F L).rm = L.rm := by
  unfold Engine.latchReg
  split <;> simp

theorem decodeEntry_eq (regs : RegRom) (ea : EaRom) (buf : Buffer) (F : FormatEntry) (off k : Nat) :
    Engine.decodeEntry regs ea buf F (firstLatches F buf off k) = entryAt regs ea buf F off := by
  unfold Engine.decodeEntry Engine.fetchModRm entryAt
  by_cases hm : F.modrm
  · simp only [hm, if_true]
    by_cases h1 : off + 1 < buf.len
    · rw [if_pos h1]
      have hread : Engine.readByte buf (firstLatches F buf off k).start (firstLatches F buf off k).cur =
          .ok (buf.byte (off + 1), off + 2) := readByte_ok h1
      rw [hread]
      dsimp only
      set L : Latches := { firstLatches F buf off k with
        cur := off + 2, modrm := some (buf.byte (off + 1)), mod := some (extract (buf.byte (off + 1)) 6 2),
        rm := some (extract (buf.byte (off + 1)) 0 3) } with hL
      obtain ⟨f1, f2, f3, f4, f5, f6, f7, f8⟩ := latchReg_fields F L
      have hext : (Engine.extensionDiffers F (Engine.latchReg F L) = true) ↔
          ∃ x, F.ext = some x ∧ extract (buf.byte (off + 1)) 3 3 ≠ x := by
        rw [Engine.extensionDiffers, f6]
        rcases F.ext with _ | x <;> simp [hL]
      by_cases he : ∃ x, F.ext = some x ∧ extract (buf.byte (off + 1)) 3 3 ≠ x
      · rw [if_pos (hext.2 he), if_pos he]; rfl
      · rw [if_neg (fun h => he (hext.1 h)), if_neg he]
        refine resolveRoles_finish regs ea buf F off (off + 2) (Engine.latchReg F L) (buf.byte (off + 1)) _ f1 f2 f3 f4 f5 ?_
          (by rw [f7]; rfl) (by rw [f8]; rfl)
        unfold Engine.latchReg regAt
        rcases F.reg with _ | _ | sh <;> simp [hL, hm, firstLatches]
    · rw [if_neg h1]
      have hread : Engine.readByte buf (firstLatches F buf off k).start (firstLatches F buf off k).cur =
          .error (truncated buf.len off (off + 1) 1) := readByte_error (by simp only [firstLatches]; omega)
      rw [hread]
  · simp only [hm]
    rw [if_neg (by simp), if_neg (by simp)]
    dsimp only
    obtain ⟨f1, f2, f3, f4, f5, f6, f7, f8⟩ := latchReg_fields F (firstLatches F buf off k)
    have hext : Engine.extensionDiffers F (Engine.latchReg F (firstLatches F buf off k)) = false := by
      rw [Engine.extensionDiffers, f6]
      rcases F.ext with _ | x <;> rfl
    rw [hext, if_neg (by simp)]
    refine resolveRoles_finish regs ea buf F off (off + 1) (Engine.latchReg F (firstLatches F buf off k)) 0#8 _ f1 f2 f3 f4 f5 ?_
      (by rw [f7]; rfl) (by rw [f8]; rfl)
    unfold Engine.latchReg regAt
    rcases F.reg with _ | _ | sh <;> simp [hm, firstLatches]

/-- The decode operation (R130) in two steps: match, then the entry. -/
theorem engine_decode_eq (fmt : List FormatEntry) (regs : RegRom) (ea : EaRom) (buf : Buffer) (off : Nat) :
    Engine.decode fmt regs ea buf off =
      if off < buf.len then
        match matchEntry 0 fmt (buf.byte off) with
        | none => .err (unknownOpcode off)
        | some (_, F) => entryAt regs ea buf F off
      else .err (truncated buf.len off off 1) := by
  unfold Engine.decode Engine.fetchOpcode
  by_cases h : off < buf.len
  · rw [if_pos h, readByte_ok h]
    dsimp only
    rcases matchEntry 0 fmt (buf.byte off) with _ | ⟨k, F⟩
    · rfl
    · exact decodeEntry_eq regs ea buf F off k
  · rw [if_neg h, readByte_error (by omega)]

end Sys2Proof.Laws
end

