-- ==== Sys2Proof/Laws/State.lean ====
section
/-! SUPPORT. One lemma per field per update of the state, so that no later proof unfolds a record update. -/

namespace Sys2Proof.Laws

open Machine

section UpdateCurrent
variable (s : State) (f : StreamCtx → StreamCtx)

@[simp] theorem updateCurrent_params : (s.updateCurrent f).params = s.params := rfl
@[simp] theorem updateCurrent_fmtRom : (s.updateCurrent f).fmtRom = s.fmtRom := rfl
@[simp] theorem updateCurrent_regRom : (s.updateCurrent f).regRom = s.regRom := rfl
@[simp] theorem updateCurrent_eaRom : (s.updateCurrent f).eaRom = s.eaRom := rfl
@[simp] theorem updateCurrent_ready : (s.updateCurrent f).ready = s.ready := rfl
@[simp] theorem updateCurrent_initPort : (s.updateCurrent f).initPort = s.initPort := rfl
@[simp] theorem updateCurrent_latches : (s.updateCurrent f).latches = s.latches := rfl
@[simp] theorem updateCurrent_streams : (s.updateCurrent f).streams = s.streams.modify s.turn f := rfl
@[simp] theorem updateCurrent_turn : (s.updateCurrent f).turn = s.turn := rfl
@[simp] theorem updateCurrent_inputs : (s.updateCurrent f).inputs = s.inputs := rfl
@[simp] theorem updateCurrent_responses : (s.updateCurrent f).responses = s.responses := rfl
end UpdateCurrent

section PopInput
variable (s : State)

@[simp] theorem popInput_params : s.popInput.params = s.params := rfl
@[simp] theorem popInput_fmtRom : s.popInput.fmtRom = s.fmtRom := rfl
@[simp] theorem popInput_regRom : s.popInput.regRom = s.regRom := rfl
@[simp] theorem popInput_eaRom : s.popInput.eaRom = s.eaRom := rfl
@[simp] theorem popInput_ready : s.popInput.ready = s.ready := rfl
@[simp] theorem popInput_initPort : s.popInput.initPort = s.initPort := rfl
@[simp] theorem popInput_latches : s.popInput.latches = s.latches := rfl
@[simp] theorem popInput_streams : s.popInput.streams = s.streams := rfl
@[simp] theorem popInput_turn : s.popInput.turn = s.turn := rfl
@[simp] theorem popInput_inputs : s.popInput.inputs = s.inputs.tail := rfl
@[simp] theorem popInput_responses : s.popInput.responses = s.responses := rfl
end PopInput

section Deliver
variable (s : State) (r : Response) (c : Client)

@[simp] theorem deliver_params : (s.deliver r c).params = s.params := by cases c <;> rfl
@[simp] theorem deliver_fmtRom : (s.deliver r c).fmtRom = s.fmtRom := by cases c <;> rfl
@[simp] theorem deliver_regRom : (s.deliver r c).regRom = s.regRom := by cases c <;> rfl
@[simp] theorem deliver_eaRom : (s.deliver r c).eaRom = s.eaRom := by cases c <;> rfl
@[simp] theorem deliver_ready : (s.deliver r c).ready = s.ready := by cases c <;> rfl
@[simp] theorem deliver_initPort : (s.deliver r c).initPort = s.initPort := by cases c <;> rfl
@[simp] theorem deliver_latches : (s.deliver r c).latches = none := by cases c <;> rfl
@[simp] theorem deliver_turn : (s.deliver r c).turn = s.turn := by cases c <;> rfl
@[simp] theorem deliver_port_streams : (s.deliver r .port).streams = s.streams := rfl
@[simp] theorem deliver_inputs : (s.deliver r c).inputs = s.inputs.tail := by cases c <;> rfl
@[simp] theorem deliver_port_responses : (s.deliver r .port).responses = s.responses ++ [r] := rfl
@[simp] theorem deliver_stream_streams : (s.deliver r .stream).streams = s.streams.modify s.turn (·.emit r) := rfl
@[simp] theorem deliver_stream_responses : (s.deliver r .stream).responses = s.responses := rfl
end Deliver

section Emit
variable (c : StreamCtx) (i : Decoded) (n : Nat) (e : DecodeError) (r : Response)

@[simp] theorem emit_buf : (c.emit r).buf = c.buf := by cases r <;> rfl
@[simp] theorem emit_abandoned : (c.emit r).abandoned = c.abandoned := by cases r <;> rfl
@[simp] theorem emit_ok_offset : (c.emit (.ok i n)).offset = c.offset + n := rfl
@[simp] theorem emit_ok_phase : (c.emit (.ok i n)).phase = c.phase := rfl
@[simp] theorem emit_ok_out : (c.emit (.ok i n)).out = c.out ++ [.line c.offset i n] := rfl
@[simp] theorem emit_err_offset : (c.emit (.err e)).offset = c.offset := rfl
@[simp] theorem emit_err_phase : (c.emit (.err e)).phase = .endedByError := rfl
@[simp] theorem emit_err_out : (c.emit (.err e)).out = c.out ++ [.error e] := rfl
@[simp] theorem finish_buf : c.finish.buf = c.buf := rfl
@[simp] theorem finish_abandoned : c.finish.abandoned = c.abandoned := rfl
@[simp] theorem finish_offset : c.finish.offset = c.offset := rfl
@[simp] theorem finish_phase : c.finish.phase = .endedAtEnd := rfl
@[simp] theorem finish_out : c.finish.out = c.out := rfl
end Emit

@[simp] theorem reset_ready : State.reset.ready = true := rfl
@[simp] theorem reset_fmtRom : State.reset.fmtRom = defaultImage := rfl
@[simp] theorem reset_inputs : State.reset.inputs = [] := rfl
@[simp] theorem reset_streams : State.reset.streams = [] := rfl

end Sys2Proof.Laws
end

