-- ==== Sys2Proof/Laws/Ops.lean ====
section
/-! SUPPORT. What the shared operations can do: which decode is in progress, and where its response goes. -/

namespace Sys2Proof.Laws

open Machine Safety

theorem transaction_of_streamServes {s : State} {c : StreamCtx} {rest : List HostInput} (h : StreamServes s c rest) :
    s.transaction = some { buf := c.buf, offset := c.offset, client := .stream } := by
  obtain ⟨-, hin, hcur, hph, hab, hoff⟩ := h
  simp [State.transaction, hin, State.current, hcur, hph, hab, hoff]

theorem transaction_of_portServes {s : State} {buf : Buffer} {offset : Nat} {rest : List HostInput}
    (h : PortServes s buf offset rest) : s.transaction = some { buf := buf, offset := offset, client := .port } := by
  simp [State.transaction, h.2]

theorem modify_eq_set {α : Type} {l : List α} {i : Nat} {a : α} (h : l[i]? = some a) (f : α → α) :
    l.modify i f = l.set i (f a) := by
  rw [List.modify_eq_set_getElem?, h]
  rfl

/-- A success for the served stream is a `Line` (R191). -/
theorem respond_ok_stream {s : State} {c : StreamCtx} {rest : List HostInput} (h : StreamServes s c rest) (v : Decoded) (n : Nat) :
    respond s (.ok v n) = .next (lineEmitted s c rest v n) := by
  rw [respond, transaction_of_streamServes h]
  simp only [h.1, if_true]
  rw [State.deliver, State.updateCurrent, modify_eq_set h.2.2.1, h.2.1]
  rfl

/-- An error for the served stream ends it (R191, R192). -/
theorem respond_err_stream {s : State} {c : StreamCtx} {rest : List HostInput} (h : StreamServes s c rest) (e : DecodeError) :
    respond s (.err e) = .next (errorEmitted s c rest e) := by
  rw [respond, transaction_of_streamServes h]
  simp only [h.1, if_true]
  rw [State.deliver, State.updateCurrent, modify_eq_set h.2.2.1, h.2.1]
  rfl

/-- The decode port gets the response (R30). -/
theorem respond_port {s : State} {buf : Buffer} {offset : Nat} {rest : List HostInput} (h : PortServes s buf offset rest)
    (r : Response) : respond s r = .next (answered s rest r) := by
  rw [respond, transaction_of_portServes h]
  simp only [h.1, if_true]
  rw [State.deliver, h.2]
  rfl

/-- All that `respond` can answer. -/
theorem respond_next {s t : State} {r : Response} (h : respond s r = .next t) :
    s.ready = true ∧
      ((∃ c rest, StreamServes s c rest ∧ t = s.deliver r .stream) ∨
        ∃ buf offset rest, PortServes s buf offset rest ∧ t = s.deliver r .port) := by
  unfold respond at h
  split at h
  · cases h
  · next tr htr =>
    split at h
    · next hr =>
      injection h with h
      refine ⟨hr, ?_⟩
      unfold State.transaction at htr
      split at htr
      · next buf offset rest hin =>
        injection htr with htr
        exact .inr ⟨buf, offset, rest, ⟨hr, hin⟩, by rw [← h, ← htr]⟩
      · next rest hin =>
        split at htr
        · next c hc =>
          split at htr
          · next hp =>
            injection htr with htr
            exact .inl ⟨c, rest, ⟨hr, hin, hc, hp.2.1, hp.1, hp.2.2⟩, by rw [← h, ← htr]⟩
          · cases htr
        · cases htr
      · cases htr
    · cases h

theorem rmOperand_eq (regs : RegRom) (ea : EaRom) (w : Bool) (rm : RmField) :
    rmOperand regs ea w rm = rmValue regs ea w rm := by
  cases rm <;> simp [rmOperand, rmValue, regOperand, disp8, disp16, signed8_eq_toInt, signed16_eq_toInt]

theorem immOperand_eq (w : Bool) (imm : ImmField) : immOperand w imm = .imm (immValue imm) := by
  cases imm <;> cases w <;> simp [immOperand, immValue, signed8_eq_toInt, signed16_eq_toInt, sext16_toInt]

/-- Every meaning is one response: the value and the length of the instruction. -/
theorem exec_eq_respond (i : Instr) (s : State) :
    exec i s = respond s (.ok (decodedValue s.regRom s.eaRom i) i.length) := by
  cases i with
  | movRmReg d w reg rm =>
    cases d <;> simp [exec, execMovRmReg, respondOk, rrDecoded, direction, swappable, rmOperand_eq, regOperand, decodedValue]
  | movImmReg w reg imm => simp [exec, execMovImmReg, respondOk, immOperand_eq, regOperand, decodedValue]
  | movImmRm w rm imm => simp [exec, execMovImmRm, respondOk, imDecoded, immOperand_eq, rmOperand_eq, decodedValue]
  | addRmReg d w reg rm =>
    cases d <;> simp [exec, execAddRmReg, respondOk, rrDecoded, direction, swappable, rmOperand_eq, regOperand, decodedValue]
  | addImmRm sx w rm imm => simp [exec, execAddImmRm, respondOk, imDecoded, immOperand_eq, rmOperand_eq, decodedValue]

end Sys2Proof.Laws
end

