-- ==== Sys2Proof/Laws/Agree.lean ====
section
/-! SUPPORT. The per-format rules are instances of the general algorithm (41_mov, 42_add: "Each rule is the algorithm of
R130, applied to one entry"). -/

namespace Sys2Proof.Laws

open Machine Safety

/-- What the byte decoder's result means as a response. -/
def responseOf (regs : RegRom) (ea : EaRom) (len off : Nat) : Except Reject (Instr × List Byte) → Response
  | .ok (i, _) => .ok (decodedValue regs ea i) i.length
  | .error r   => .err (rejectError len off r)

theorem window_one (buf : Buffer) (off : Nat) :
    (off + 1 < buf.len ∧ buf.window (off + 1) 5 = buf.byte (off + 1) :: buf.window (off + 2) 4) ∨
      (buf.len ≤ off + 1 ∧ buf.window (off + 1) 5 = []) := by
  by_cases h : off + 1 < buf.len
  · exact .inl ⟨h, by rw [Buffer.window, if_pos h]⟩
  · exact .inr ⟨by omega, by rw [Buffer.window, if_neg h]⟩

theorem truncated_modrm (buf : Buffer) (off : Nat) :
    truncated buf.len off (off + 1) 1 = rejectError buf.len off (.truncated 2) := by
  simp [truncated, rejectError]
  omega

/-- The general algorithm on an entry of the default image is the row's decoding and value. -/
theorem decodeEntry_row (regs : RegRom) (ea : EaRom) (buf : Buffer) (off k : Nat) (row : Row) :
    Engine.decodeEntry regs ea buf (rowEntry row) (firstLatches (rowEntry row) buf off k) =
      responseOf regs ea buf.len off (Decode.decodeRow row (buf.byte off) (buf.window (off + 1) 5)) := by
  have hrm := takeRm_readRm buf off (buf.byte (off + 1))
  generalize hb : buf.byte off = b0
  cases row with
  | movRmReg =>
    rcases window_one buf off with ⟨h1, hw⟩ | ⟨h1, hw⟩
    · rcases hx : Decode.takeRm (buf.byte (off + 1)) (buf.window (off + 2) 4) with r | ⟨rm, rest⟩ <;>
        rcases hy : Engine.readRm buf off (off + 2) (extract (buf.byte (off + 1)) 6 2) (extract (buf.byte (off + 1)) 0 3)
          with e | ⟨rm', cur⟩ <;>
        simp_all [Engine.decodeEntry, Engine.fetchModRm, firstLatches, rowEntry, readByte_ok, Engine.latchReg,
          Engine.extensionDiffers, Engine.resolveRoles, Engine.resolve, Engine.finish, ReadsAlike, responseOf,
          Decode.decodeRow, Decode.takeRr, Decode.takeByte]
      cases hd : bit b0 1 <;>
        simp [direction, swappable, decodedValue, rmOperand_eq, regOperand, latchFlag, hd, Instr.length]
    · simp_all [Engine.decodeEntry, Engine.fetchModRm, firstLatches, rowEntry, readByte_error, responseOf,
          Decode.decodeRow, Decode.takeRr, Decode.takeByte, truncated_modrm]
  | movImmReg =>
    have himm := takeImm_readImm buf off 1 (by omega) (bit b0 3) false
    rcases hx : Decode.takeImm 1 (bit b0 3) false (buf.window (off + 1) 5) with r | ⟨imm, rest⟩ <;>
      rcases hy : Engine.readImm buf off (off + 1) (bit b0 3) false with e | ⟨imm', cur⟩ <;>
      simp_all [Engine.decodeEntry, Engine.fetchModRm, firstLatches, rowEntry, Engine.latchReg, latchFlag,
          Engine.extensionDiffers, Engine.resolveRoles, Engine.resolve, Engine.finish, ReadsAlike, responseOf,
          Decode.decodeRow, direction, decodedValue, immOperand_eq, regOperand, Instr.length]
  | movImmRm =>
    rcases window_one buf off with ⟨h1, hw⟩ | ⟨h1, hw⟩
    · by_cases hext : extract (buf.byte (off + 1)) 3 3 = 0#3
      · rcases hx : Decode.takeRm (buf.byte (off + 1)) (buf.window (off + 2) 4) with r | ⟨rm, rest⟩ <;>
          rcases hy : Engine.readRm buf off (off + 2) (extract (buf.byte (off + 1)) 6 2) (extract (buf.byte (off + 1)) 0 3)
            with e | ⟨rm', cur⟩
        · simp_all [Engine.decodeEntry, Engine.fetchModRm, firstLatches, rowEntry, readByte_ok, Engine.latchReg,
            Engine.extensionDiffers, Engine.resolveRoles, Engine.resolve, ReadsAlike, responseOf,
            Decode.decodeRow, Decode.takeIm, Decode.takeByte]
        · simp_all [ReadsAlike]
        · simp_all [ReadsAlike]
        · have hdl : 2 + rm.dispLen + 2 ≤ 6 := by cases rm <;> simp [RmField.dispLen]
          have himm := takeImm_readImm buf off (2 + rm.dispLen) hdl (bit b0 0) false
          rw [hx, hy] at hrm
          simp only [ReadsAlike] at hrm
          obtain ⟨rfl, rfl, rfl⟩ := hrm
          rcases hx' : Decode.takeImm (2 + rm.dispLen) (bit b0 0) false (buf.window (off + (2 + rm.dispLen)) (6 - (2 + rm.dispLen)))
            with r | ⟨imm, rest⟩ <;>
            rcases hy' : Engine.readImm buf off (off + (2 + rm.dispLen)) (bit b0 0) false with e | ⟨imm', cur⟩ <;>
            simp_all [Engine.decodeEntry, Engine.fetchModRm, firstLatches, rowEntry, readByte_ok, Engine.latchReg, latchFlag,
              Engine.extensionDiffers, Engine.resolveRoles, Engine.resolve, Engine.finish, ReadsAlike, responseOf,
              Decode.decodeRow, Decode.takeIm, Decode.takeByte, direction, decodedValue, immOperand_eq, rmOperand_eq,
              Instr.length]
      · simp_all [Engine.decodeEntry, Engine.fetchModRm, firstLatches, rowEntry, readByte_ok, Engine.latchReg,
            Engine.extensionDiffers, responseOf, Decode.decodeRow, Decode.takeIm, Decode.takeByte, rejectError]
    · simp_all [Engine.decodeEntry, Engine.fetchModRm, firstLatches, rowEntry, readByte_error, responseOf,
          Decode.decodeRow, Decode.takeIm, Decode.takeByte, truncated_modrm]
  | addRmReg =>
    rcases window_one buf off with ⟨h1, hw⟩ | ⟨h1, hw⟩
    · rcases hx : Decode.takeRm (buf.byte (off + 1)) (buf.window (off + 2) 4) with r | ⟨rm, rest⟩ <;>
        rcases hy : Engine.readRm buf off (off + 2) (extract (buf.byte (off + 1)) 6 2) (extract (buf.byte (off + 1)) 0 3)
          with e | ⟨rm', cur⟩ <;>
        simp_all [Engine.decodeEntry, Engine.fetchModRm, firstLatches, rowEntry, readByte_ok, Engine.latchReg,
          Engine.extensionDiffers, Engine.resolveRoles, Engine.resolve, Engine.finish, ReadsAlike, responseOf,
          Decode.decodeRow, Decode.takeRr, Decode.takeByte]
      cases hd : bit b0 1 <;>
        simp [direction, swappable, decodedValue, rmOperand_eq, regOperand, latchFlag, hd, Instr.length]
    · simp_all [Engine.decodeEntry, Engine.fetchModRm, firstLatches, rowEntry, readByte_error, responseOf,
          Decode.decodeRow, Decode.takeRr, Decode.takeByte, truncated_modrm]
  | addImmRm =>
    rcases window_one buf off with ⟨h1, hw⟩ | ⟨h1, hw⟩
    · by_cases hext : extract (buf.byte (off + 1)) 3 3 = 0#3
      · rcases hx : Decode.takeRm (buf.byte (off + 1)) (buf.window (off + 2) 4) with r | ⟨rm, rest⟩ <;>
          rcases hy : Engine.readRm buf off (off + 2) (extract (buf.byte (off + 1)) 6 2) (extract (buf.byte (off + 1)) 0 3)
            with e | ⟨rm', cur⟩
        · simp_all [Engine.decodeEntry, Engine.fetchModRm, firstLatches, rowEntry, readByte_ok, Engine.latchReg,
            Engine.extensionDiffers, Engine.resolveRoles, Engine.resolve, ReadsAlike, responseOf,
            Decode.decodeRow, Decode.takeIm, Decode.takeByte]
        · simp_all [ReadsAlike]
        · simp_all [ReadsAlike]
        · have hdl : 2 + rm.dispLen + 2 ≤ 6 := by cases rm <;> simp [RmField.dispLen]
          have himm := takeImm_readImm buf off (2 + rm.dispLen) hdl (bit b0 0) (bit b0 1)
          rw [hx, hy] at hrm
          simp only [ReadsAlike] at hrm
          obtain ⟨rfl, rfl, rfl⟩ := hrm
          rcases hx' : Decode.takeImm (2 + rm.dispLen) (bit b0 0) (bit b0 1)
              (buf.window (off + (2 + rm.dispLen)) (6 - (2 + rm.dispLen))) with r | ⟨imm, rest⟩ <;>
            rcases hy' : Engine.readImm buf off (off + (2 + rm.dispLen)) (bit b0 0) (bit b0 1) with e | ⟨imm', cur⟩ <;>
            simp_all [Engine.decodeEntry, Engine.fetchModRm, firstLatches, rowEntry, readByte_ok, Engine.latchReg, latchFlag,
              Engine.extensionDiffers, Engine.resolveRoles, Engine.resolve, Engine.finish, ReadsAlike, responseOf,
              Decode.decodeRow, Decode.takeIm, Decode.takeByte, direction, decodedValue, immOperand_eq, rmOperand_eq,
              Instr.length]
      · simp_all [Engine.decodeEntry, Engine.fetchModRm, firstLatches, rowEntry, readByte_ok, Engine.latchReg,
            Engine.extensionDiffers, responseOf, Decode.decodeRow, Decode.takeIm, Decode.takeByte, rejectError]
    · simp_all [Engine.decodeEntry, Engine.fetchModRm, firstLatches, rowEntry, readByte_error, responseOf,
          Decode.decodeRow, Decode.takeIm, Decode.takeByte, truncated_modrm]

end Sys2Proof.Laws
end

