-- ==== Sys2Proof/Laws/Memory.lean ====
section
/-! SUPPORT. The buffer's laws: reads after writes, and that every operation keeps the canonical form. -/

namespace Sys2Proof.Laws

open Machine

theorem wfFrom_mono {lo lo' : Nat} (h : lo ≤ lo') : ∀ {m : Memory}, Memory.wfFrom lo' m = true → Memory.wfFrom lo m = true
  | [], _ => rfl
  | (a, b) :: m, hm => by
    simp only [Memory.wfFrom, Bool.and_eq_true, decide_eq_true_eq] at hm ⊢
    exact ⟨⟨by omega, hm.1.2⟩, hm.2⟩

/-- An address below a canonical memory's first cell reads as unlisted. -/
theorem read_below {lo i : Nat} (hi : i < lo) : ∀ {m : Memory}, Memory.wfFrom lo m = true → Memory.read m i = Memory.unlisted
  | [], _ => rfl
  | (a, b) :: m, hm => by
    simp only [Memory.wfFrom, Bool.and_eq_true, decide_eq_true_eq] at hm
    rw [Memory.read, if_neg (by omega), read_below (by omega) hm.2]

theorem write_wfFrom {lo i : Nat} {b : Byte} (hi : lo ≤ i) :
    ∀ {m : Memory}, Memory.wfFrom lo m = true → Memory.wfFrom lo (Memory.write m i b) = true
  | [], _ => by
    unfold Memory.write
    split <;> simp_all [Memory.wfFrom]
  | (a, v) :: m, hm => by
    have hm' := hm
    simp only [Memory.wfFrom, Bool.and_eq_true, decide_eq_true_eq, bne_iff_ne] at hm'
    obtain ⟨⟨ha, hv⟩, hrest⟩ := hm'
    unfold Memory.write
    split
    · split
      · exact hm
      · simp_all [Memory.wfFrom]
    · split
      · split
        · exact wfFrom_mono (by omega) hrest
        · simp_all [Memory.wfFrom]
      · simp only [Memory.wfFrom, Bool.and_eq_true, decide_eq_true_eq, bne_iff_ne]
        exact ⟨⟨ha, hv⟩, write_wfFrom (by omega) hrest⟩

/-- Every write keeps the canonical form. -/
theorem write_wf {m : Memory} (hm : m.wf = true) (i : Nat) (b : Byte) : (Memory.write m i b).wf = true :=
  write_wfFrom (Nat.zero_le i) hm

theorem ofBytes_wfFrom (addr : Nat) (bytes : List Byte) : Memory.wfFrom addr (Memory.ofBytes addr bytes) = true := by
  induction bytes generalizing addr with
  | nil => rfl
  | cons b rest ih =>
    unfold Memory.ofBytes
    split
    · exact wfFrom_mono (by omega) (ih _)
    · simp_all [Memory.wfFrom]

theorem ofBytes_read (addr : Nat) (bytes : List Byte) (i : Nat) :
    Memory.read (Memory.ofBytes addr bytes) (addr + i) = bytes.getD i Memory.unlisted := by
  induction bytes generalizing addr i with
  | nil => simp [Memory.ofBytes, Memory.read]
  | cons b rest ih =>
    have key : ∀ j, Memory.read (Memory.ofBytes (addr + 1) rest) (addr + (j + 1)) = rest.getD j Memory.unlisted := by
      intro j
      have := ih (addr + 1) j
      rwa [show addr + 1 + j = addr + (j + 1) by omega] at this
    unfold Memory.ofBytes
    cases i with
    | zero =>
      split
      · next h => simpa [h] using read_below (Nat.lt_succ_self addr) (ofBytes_wfFrom (addr + 1) rest)
      · simp [Memory.read]
    | succ j =>
      split
      · simpa using key j
      · rw [Memory.read, if_neg (by omega)]
        simpa using key j

theorem ofBytes_below (n addr : Nat) (bytes : List Byte) (h : addr + bytes.length ≤ n) :
    (Memory.ofBytes addr bytes).all (fun c => decide (c.1 < n)) = true := by
  induction bytes generalizing addr with
  | nil => rfl
  | cons b rest ih =>
    rw [List.length_cons] at h
    have := ih (addr + 1) (by omega)
    unfold Memory.ofBytes
    split
    · exact this
    · simp only [List.all_cons, this, Bool.and_true, decide_eq_true_eq]
      omega

/-- A byte sequence laid out as a buffer is well formed. -/
theorem buffer_ofBytes_wf (bytes : List Byte) : (Buffer.ofBytes bytes).wf = true := by
  simp only [Buffer.wf, Buffer.ofBytes, Memory.wf, Bool.and_eq_true]
  exact ⟨ofBytes_wfFrom 0 bytes, ofBytes_below _ 0 bytes (by omega)⟩

@[simp] theorem buffer_ofBytes_len (bytes : List Byte) : (Buffer.ofBytes bytes).len = bytes.length := rfl

/-- A buffer made from bytes holds them. -/
theorem buffer_ofBytes_byte (bytes : List Byte) (i : Nat) : (Buffer.ofBytes bytes).byte i = bytes.getD i 0#8 := by
  simpa [Buffer.byte, Buffer.ofBytes, Memory.unlisted] using ofBytes_read 0 bytes i

/-- A read after a write to the same address. -/
theorem read_write_same {lo i : Nat} {b : Byte} :
    ∀ {m : Memory}, Memory.wfFrom lo m = true → Memory.read (Memory.write m i b) i = b
  | [], _ => by
    unfold Memory.write
    split <;> simp_all [Memory.read]
  | (a, v) :: m, hm => by
    have hm' := hm
    simp only [Memory.wfFrom, Bool.and_eq_true, decide_eq_true_eq, bne_iff_ne] at hm'
    unfold Memory.write
    split
    · split
      · next hlt hb =>
        rw [Memory.read, if_neg (by omega), read_below (lo := a + 1) (by omega) hm'.2, hb]
      · simp [Memory.read]
    · split
      · split
        · next hlt hia hb => rw [hia, read_below (Nat.lt_succ_self a) hm'.2, hb]
        · simp [Memory.read]
      · rw [Memory.read, if_neg (by omega)]
        exact read_write_same hm'.2

/-- A write leaves every other address as it was. -/
theorem read_write_other {i j : Nat} {b : Byte} (hij : j ≠ i) :
    ∀ {m : Memory}, Memory.read (Memory.write m i b) j = Memory.read m j
  | [] => by
    unfold Memory.write
    split
    · rfl
    · simp [Memory.read, Ne.symm hij]
  | (a, v) :: m => by
    unfold Memory.write
    split
    · split
      · rfl
      · rw [Memory.read, if_neg (Ne.symm hij)]
    · split
      · next hia =>
        split
        · rw [Memory.read, if_neg (by omega)]
        · rw [Memory.read, if_neg (by omega), Memory.read, if_neg (by omega)]
      · rw [Memory.read, Memory.read, read_write_other hij]

theorem write_below {n i : Nat} {b : Byte} (hi : i < n) :
    ∀ {m : Memory}, m.all (fun c => decide (c.1 < n)) = true →
      (Memory.write m i b).all (fun c => decide (c.1 < n)) = true
  | [], _ => by
    unfold Memory.write
    split <;> simp_all
  | (a, v) :: m, hm => by
    simp only [List.all_cons, Bool.and_eq_true, decide_eq_true_eq] at hm
    unfold Memory.write
    split
    · split <;> simp only [List.all_cons, Bool.and_eq_true, decide_eq_true_eq]
      · exact hm
      · exact ⟨hi, hm⟩
    · split
      · split
        · exact hm.2
        · simp only [List.all_cons, Bool.and_eq_true, decide_eq_true_eq]
          exact ⟨hi, hm.2⟩
      · simp only [List.all_cons, Bool.and_eq_true, decide_eq_true_eq]
        exact ⟨hm.1, write_below hi hm.2⟩

/-- The host's change of a byte keeps a buffer well formed. -/
theorem buffer_write_wf {buf : Buffer} (h : buf.wf = true) {i : Nat} (hi : i < buf.len) (b : Byte) :
    (buf.write i b).wf = true := by
  simp only [Buffer.wf, Buffer.write, Bool.and_eq_true] at h ⊢
  exact ⟨write_wf h.1 i b, write_below hi h.2⟩

end Sys2Proof.Laws
end

