-- ==== Sys2Proof/Laws/PerInstr.lean ====
section
/-! SUPPORT. Facts about every instruction as syntax, one lemma per constructor. -/

namespace Sys2Proof.Laws.EncodeLength

/-- An instruction's encoding is as long as R83 says, two to six bytes (R70). -/
def Statement (i : Instr) : Prop :=
  (Encode.encode i).length = i.length ∧ 2 ≤ i.length ∧ i.length ≤ 6

theorem rmBytes_length (reg : BitVec 3) (rm : RmField) : (Encode.rmBytes reg rm).length = 1 + rm.dispLen := by
  cases rm <;> rfl

theorem immBytes_length (imm : ImmField) : (Encode.immBytes imm).length = imm.len := by
  cases imm <;> rfl

theorem dispLen_le (rm : RmField) : rm.dispLen ≤ 2 := by cases rm <;> simp [RmField.dispLen]

theorem immLen_range (imm : ImmField) : 1 ≤ imm.len ∧ imm.len ≤ 2 := by cases imm <;> simp [ImmField.len]

theorem movRmReg (d w : Bool) (reg : BitVec 3) (rm : RmField) : Statement (.movRmReg d w reg rm) := by
  have := dispLen_le rm
  simp only [Statement, Encode.encode, Instr.length, List.length_cons, rmBytes_length]
  omega

theorem movImmReg (w : Bool) (reg : BitVec 3) (imm : ImmField) : Statement (.movImmReg w reg imm) := by
  have := immLen_range imm
  simp only [Statement, Encode.encode, Instr.length, List.length_cons, immBytes_length]
  omega

theorem movImmRm (w : Bool) (rm : RmField) (imm : ImmField) : Statement (.movImmRm w rm imm) := by
  have := dispLen_le rm
  have := immLen_range imm
  simp only [Statement, Encode.encode, Instr.length, List.length_cons, List.length_append, rmBytes_length, immBytes_length]
  omega

theorem addRmReg (d w : Bool) (reg : BitVec 3) (rm : RmField) : Statement (.addRmReg d w reg rm) := by
  have := dispLen_le rm
  simp only [Statement, Encode.encode, Instr.length, List.length_cons, rmBytes_length]
  omega

theorem addImmRm (sx w : Bool) (rm : RmField) (imm : ImmField) : Statement (.addImmRm sx w rm imm) := by
  have := dispLen_le rm
  have := immLen_range imm
  simp only [Statement, Encode.encode, Instr.length, List.length_cons, List.length_append, rmBytes_length, immBytes_length]
  omega

end Sys2Proof.Laws.EncodeLength
end

