-- ==== Sys2Proof/Laws/Step.lean ====
section
/-! SUPPORT. What one step can do, said once: later proofs take `step_cases` apart and unfold nothing. -/

namespace Sys2Proof.Laws

open Machine Safety

/-- Serving a decode answers what the general algorithm answers, whichever way it goes (log 23). -/
theorem serveDecode_eq (s : State) (buf : Buffer) (off : Nat) :
    serveDecode s buf off = respond s (Engine.decode s.fmtRom s.regRom s.eaRom buf off) := by
  unfold serveDecode
  split
  · next i hi =>
    unfold fetchInstr fetchBytes at hi
    split at hi
    · cases hi
    · next b0 rest hw =>
      rw [Buffer.window] at hw
      split at hw
      · next hlt =>
        injection hw with h1 h2; subst h1 h2
        split at hi
        · cases hi
        · next k F hm =>
          split at hi
          · cases hi
          · next row hrow =>
            split at hi
            · next i' r hd =>
              injection hi with hi; subst hi
              have hF : rowEntry row = F := by
                have := List.find?_some hrow
                simpa using this
              rw [engine_decode_eq, if_pos hlt, hm, exec_eq_respond]
              dsimp only
              have := decodeEntry_row s.regRom s.eaRom buf off 0 row
              rw [decodeEntry_eq, hd] at this
              rw [← hF, this]; rfl
            · cases hi
      · cases hw
  · rfl

theorem step_stream {s : State} {c : StreamCtx} {rest : List HostInput} (h : StreamServes s c rest) :
    step s = respond s (Engine.decode s.fmtRom s.regRom s.eaRom c.buf c.offset) := by
  obtain ⟨h1, h2, h3, h4, h5, h6⟩ := h
  simp only [step, h2, sequencerStep, State.current, h3, StreamCtx.whenTakable, h4, h5, if_neg h6, reduceCtorEq, if_false,
    Bool.false_eq_true]
  exact serveDecode_eq ..

theorem step_port {s : State} {buf : Buffer} {off : Nat} {rest : List HostInput} (h : PortServes s buf off rest)
    (hl : buf.len < 2 ^ s.params.offsetBits) :
    step s = respond s (Engine.decode s.fmtRom s.regRom s.eaRom buf off) := by
  obtain ⟨h1, h2⟩ := h
  simp only [step, h2, State.whenAdmitted, h1, hl, if_true]
  exact serveDecode_eq ..

/-- A stream that the host may go on with. -/
theorem whenTakable_next {c : StreamCtx} {k : Result} {t : State} (h : c.whenTakable k = .next t) :
    c.phase ≠ .endedByError ∧ c.abandoned = false ∧ k = .next t := by
  unfold StreamCtx.whenTakable at h
  split at h
  · cases h
  · next he =>
    split at h
    · cases h
    · next ha => exact ⟨he, by simpa using ha, h⟩

/-- Everything a step can do when it answers a next state. -/
theorem step_cases {s t : State} (h : step s = .next t) :
    (s.inputs = [] ∧ t = s) ∨
    (∃ c rest, s.inputs = .take :: rest ∧ s.current = some c ∧ c.phase = .endedAtEnd ∧ c.abandoned = false ∧ t = s.popInput) ∨
    (∃ c rest, s.inputs = .take :: rest ∧ s.current = some c ∧ c.phase = .running ∧ c.abandoned = false ∧
      c.offset = c.buf.len ∧ t = (s.updateCurrent StreamCtx.finish).popInput) ∨
    (∃ c rest, StreamServes s c rest ∧
      t = s.deliver (Engine.decode s.fmtRom s.regRom s.eaRom c.buf c.offset) .stream) ∨
    (∃ buf off rest, PortServes s buf off rest ∧ buf.len < 2 ^ s.params.offsetBits ∧
      t = s.deliver (Engine.decode s.fmtRom s.regRom s.eaRom buf off) .port) ∨
    (∃ image rest, s.inputs = .initialise image :: rest ∧ s.initPort = .pending ∧ image ≠ [] ∧
      checkImage s.params.mnemonics image = none ∧
      t = { s with fmtRom := image, ready := true, initPort := .passed, inputs := rest }) ∨
    (∃ image rest e, s.inputs = .initialise image :: rest ∧ s.initPort = .pending ∧
      checkImage s.params.mnemonics image = some e ∧ t = { s with initPort := .failed e, inputs := rest }) ∨
    (∃ buf rest, s.inputs = .streamRequest buf :: rest ∧ s.ready = true ∧ buf.len < 2 ^ s.params.offsetBits ∧
      t = { s with streams := s.streams ++ [StreamCtx.start buf], turn := s.streams.length, inputs := rest }) ∨
    (∃ k c rest, s.inputs = .resume k :: rest ∧ s.streams[k]? = some c ∧ c.phase ≠ .endedByError ∧ c.abandoned = false ∧
      t = { s with turn := k, inputs := rest }) ∨
    (∃ k c rest, s.inputs = .abandon k :: rest ∧ s.streams[k]? = some c ∧
      t = { s with streams := s.streams.set k { c with abandoned := true }, inputs := rest }) ∨
    (∃ k i b c rest, s.inputs = .changeByte k i b :: rest ∧ s.streams[k]? = some c ∧ i < c.buf.len ∧
      (c.phase = .running → c.abandoned = false → c.buf.byte i = b) ∧
      t = { s with streams := s.streams.set k { c with buf := c.buf.write i b }, inputs := rest }) := by
  unfold step at h
  split at h
  · next hin => injection h with h; exact .inl ⟨hin, h.symm⟩
  · next rest hin =>
    unfold sequencerStep at h
    split at h
    · cases h
    · next c hc =>
      obtain ⟨he, ha, h⟩ := whenTakable_next h
      split at h
      · next hp => injection h with h; exact .inr (.inl ⟨c, rest, hin, hc, hp, ha, h.symm⟩)
      · next hp =>
        have hr : c.phase = .running := by
          rcases hph : c.phase with _ | _ | _
          · rfl
          · exact absurd hph hp
          · exact absurd hph he
        split at h
        · next ho => injection h with h; exact .inr (.inr (.inl ⟨c, rest, hin, hc, hr, ha, ho, h.symm⟩))
        · next ho =>
          rw [serveDecode_eq] at h
          obtain ⟨-, ⟨c', rest', hs, rfl⟩ | ⟨_, _, _, hs, _⟩⟩ := respond_next h
          · have : c' = c := Option.some.inj (hs.2.2.1.symm.trans hc)
            subst this
            exact .inr (.inr (.inr (.inl ⟨c', rest', hs, rfl⟩)))
          · simp [hs.2] at hin
  · next image rest hin =>
    unfold initialise at h
    split at h
    · next hp =>
      split at h
      · cases h
      · next hne =>
        split at h
        · next hc =>
          injection h with h
          exact .inr (.inr (.inr (.inr (.inr (.inl ⟨image, rest, hin, hp, hne, hc, by rw [← h, hin]; rfl⟩)))))
        · next e hc =>
          injection h with h
          exact .inr (.inr (.inr (.inr (.inr (.inr (.inl ⟨image, rest, e, hin, hp, hc, by rw [← h, hin]; rfl⟩))))))
    · cases h
  · next buf off rest hin =>
    unfold State.whenAdmitted at h
    split at h
    · next hr =>
      split at h
      · next hl =>
        rw [serveDecode_eq, respond_port ⟨hr, hin⟩] at h
        injection h with h
        refine .inr (.inr (.inr (.inr (.inl ⟨buf, off, rest, ⟨hr, hin⟩, hl, ?_⟩))))
        rw [← h, State.deliver, hin]; rfl
      · cases h
    · cases h
  · next buf rest hin =>
    unfold openStream State.whenAdmitted at h
    split at h
    · next hr =>
      split at h
      · next hl =>
        injection h with h
        exact .inr (.inr (.inr (.inr (.inr (.inr (.inr (.inl ⟨buf, rest, hin, hr, hl, by rw [← h, hin]; rfl⟩)))))))
      · cases h
    · cases h
  · next k rest hin =>
    unfold resumeStream at h
    split at h
    · cases h
    · next c hc =>
      obtain ⟨he, ha, h⟩ := whenTakable_next h
      injection h with h
      exact .inr (.inr (.inr (.inr (.inr (.inr (.inr (.inr (.inl ⟨k, c, rest, hin, hc, he, ha, by rw [← h, hin]; rfl⟩))))))))
  · next k rest hin =>
    unfold abandonStream at h
    split at h
    · cases h
    · next c hc =>
      injection h with h
      refine .inr (.inr (.inr (.inr (.inr (.inr (.inr (.inr (.inr (.inl ⟨k, c, rest, hin, hc, ?_⟩)))))))))
      rw [← h, hin, modify_eq_set hc]; rfl
  · next k i b rest hin =>
    unfold changeByte at h
    split at h
    · cases h
    · next c hc =>
      split at h
      · cases h
      · next hi =>
        split at h
        · cases h
        · next hp =>
          injection h with h
          refine .inr (.inr (.inr (.inr (.inr (.inr (.inr (.inr (.inr (.inr ⟨k, i, b, c, rest, hin, hc, by omega, ?_, ?_⟩)))))))))
          · intro hr ha
            by_contra hne
            exact hp ⟨hr, ha, hne⟩
          · rw [← h, hin, modify_eq_set hc]; rfl

/-- A step that answers leaves the parameters, REG_ROM and EA_ROM as they were (R23). -/
theorem step_roms {s t : State} (h : step s = .next t) :
    t.params = s.params ∧ t.regRom = s.regRom ∧ t.eaRom = s.eaRom := by
  rcases step_cases h with ⟨_, rfl⟩ | ⟨_, _, _, _, _, _, rfl⟩ | ⟨_, _, _, _, _, _, _, rfl⟩ | ⟨_, _, _, rfl⟩ |
    ⟨_, _, _, _, _, rfl⟩ | ⟨_, _, _, _, _, _, rfl⟩ | ⟨_, _, _, _, _, _, rfl⟩ | ⟨_, _, _, _, _, rfl⟩ |
    ⟨_, _, _, _, _, _, _, rfl⟩ | ⟨_, _, _, _, _, rfl⟩ | ⟨_, _, _, _, _, _, _, _, _, rfl⟩ <;> simp

end Sys2Proof.Laws
end

