-- ==== Sys2Proof/Tests/Slice0.lean ====
section
/-! SUPPORT. The model's own tests. Expected results come from spec/95_test_vectors.md (the section is in each comment) or
from the encodings of 30_encoding written out bit by bit. The witnesses at the end meet the hypotheses of the statements in
Certificates/Slice0/Obligations.lean. -/

namespace Sys2Proof.Tests

open Sys2Proof.Machine Sys2Proof.Safety

/-! ### Small states -/

/-- A ready block with one fresh stream over `bytes`, from which the host takes an element. -/
def streamOver (bytes : List Byte) : State :=
  { State.reset with streams := [StreamCtx.start (Buffer.ofBytes bytes)], inputs := [.take] }

/-- A ready block whose host asks for one decode. -/
def portOver (bytes : List Byte) (off : Nat) : State :=
  { State.reset with inputs := [.decodeRequest (Buffer.ofBytes bytes) off] }

/-- A fresh block to which the host presents `image`. -/
def initWith (image : List FormatEntry) : State := { State.beforeInit with inputs := [.initialise image] }

/-- A ready block with one stream that ended by an error, and one host action. -/
def afterError (inputs : List HostInput) : State :=
  { State.reset with
    streams := [{ buf := Buffer.ofBytes [0x0f], offset := 0, phase := .endedByError, out := [.error (unknownOpcode 0)],
                  abandoned := false }],
    inputs := inputs }

/-- A ready block with one stream over two bytes in the given phase, and one host action. -/
def twoBytes (phase : StreamPhase) (inputs : List HostInput) : State :=
  { State.reset with
    streams := [{ buf := Buffer.ofBytes [0x89, 0xd9], offset := 0, phase := phase, out := [], abandoned := false }],
    inputs := inputs }

/-- The host takes from both of two streams, over `89 d9` and over `b1 0c`, in the order `ks`. -/
def twoStreams (ks : List Nat) : State :=
  { State.reset with
    streams := [StreamCtx.start (Buffer.ofBytes [0x89, 0xd9]), StreamCtx.start (Buffer.ofBytes [0xb1, 0x0c])],
    inputs := takes ks }

/-- An image entry with the roles (IMM, RM), which passes the check (R263). -/
def immFirst : FormatEntry := { rowEntry .movImmRm with roles := (.imm, .rm) }

/-- An image entry with a ModRM byte and no role RM, which passes the check (R263). -/
def noRm : FormatEntry := { rowEntry .movRmReg with roles := (.reg, .imm), d := none, imm := true }

def stateOf : Result → Option State
  | .next t => some t
  | _ => none

/-- The line or failure line that the first step of a stream over `bytes` emits, and the offset after it. -/
def firstLine (bytes : List Byte) : Option (List Char × Nat) := do
  let t ← stateOf (step (streamOver bytes))
  let c ← t.streams.head?
  let e ← c.out.head?
  return (Renderer.elementText e, c.offset)

/-- The response of the decode port. -/
def answer (bytes : List Byte) (off : Nat) : Option Response := do
  let t ← stateOf (step (portOver bytes off))
  t.responses.head?

/-- What initialisation with `image` reports. -/
def initReport (image : List FormatEntry) : Option (InitPort × Bool) := do
  let t ← stateOf (step (initWith image))
  return (t.initPort, t.ready)

def truncation (off available required : Nat) : Response :=
  .err { code := .truncatedInstruction, offset := off, bytesAvailable := available, bytesRequired := required }

/-! ### Well-formedness: an ill-formed term for each check -/

theorem test_wf_based_110 : (Instr.movRmReg false true 0#3 (.based 0b110#3)).wellFormed = false := by decide
theorem test_wf_add_based_110 : (Instr.addRmReg true false 7#3 (.based 0b110#3)).wellFormed = false := by decide
theorem test_wf_imm_rm_based_110 : (Instr.movImmRm false (.based 0b110#3) (.imm8 0#8)).wellFormed = false := by decide
theorem test_wf_add_imm_based_110 : (Instr.addImmRm false false (.based 0b110#3) (.imm8 0#8)).wellFormed = false := by decide
theorem test_wf_mov_reg_imm8_word : (Instr.movImmReg true 0#3 (.imm8 0#8)).wellFormed = false := by decide
theorem test_wf_mov_reg_imm16_byte : (Instr.movImmReg false 0#3 (.imm16 0#16)).wellFormed = false := by decide
theorem test_wf_mov_rm_imm8_word : (Instr.movImmRm true (.register 0#3) (.imm8 0#8)).wellFormed = false := by decide
theorem test_wf_mov_rm_imm16_byte : (Instr.movImmRm false (.register 0#3) (.imm16 0#16)).wellFormed = false := by decide
theorem test_wf_add_imm8_unsigned_word : (Instr.addImmRm false true (.register 0#3) (.imm8 0#8)).wellFormed = false := by decide
theorem test_wf_add_imm16_signed_word : (Instr.addImmRm true true (.register 0#3) (.imm16 0#16)).wellFormed = false := by decide
theorem test_wf_add_imm8_signed_word : (Instr.addImmRm true true (.register 0#3) (.imm8 0#8)).wellFormed = true := by decide

/-! ### Decoding of words written out from the layouts -/

/-- R77: 100010 D=0 W=1, then MOD=00 REG=011 RM=110 and the direct address 0x0000 (95 section 3, P7). -/
theorem test_decode_mov_direct : Decode.decode [0b10001001, 0b00011110, 0x00, 0x00, 0x90] =
    .ok (.movRmReg false true 0b011#3 (.direct 0#16), [0x90]) := rfl
/-- R77: 100010 D=1 W=0, MOD=10 REG=000 RM=000, displacement 0x1387 (95 section 1.1, S6). -/
theorem test_decode_mov_disp16 : Decode.decode [0b10001010, 0b10000000, 0x87, 0x13] =
    .ok (.movRmReg true false 0b000#3 (.based16 0b000#3 0x1387#16), []) := rfl
/-- R78: 1011 W=1 REG=001, two bytes (95 section 1.2, T5). -/
theorem test_decode_mov_imm16 : Decode.decode [0b10111001, 0xf4, 0xff] = .ok (.movImmReg true 0b001#3 (.imm16 0xfff4#16), []) := rfl
/-- R79: 1100011 W=0, MOD=00 REG=000 RM=110, direct address, immediate (95 section 2.7). -/
theorem test_decode_mov_imm_direct : Decode.decode [0b11000110, 0b00000110, 0xe8, 0x03, 0xff] =
    .ok (.movImmRm false (.direct 1000#16) (.imm8 0xff#8), []) := rfl
/-- R77: 000000 D=0 W=0, MOD=01 REG=000 RM=001, displacement 0xdb (95 section 3, P7). -/
theorem test_decode_add_disp8 : Decode.decode [0b00000000, 0b01000001, 0xdb] =
    .ok (.addRmReg false false 0b000#3 (.based8 0b001#3 0xdb#8), []) := rfl
/-- R79: 100000 S=0 W=1, MOD=10 REG=000 RM=110, displacement 0x0100, immediate 0x8000 (95 section 2.7). -/
theorem test_decode_add_imm16 : Decode.decode [0b10000001, 0b10000110, 0x00, 0x01, 0x00, 0x80] =
    .ok (.addImmRm false true (.based16 0b110#3 0x0100#16) (.imm16 0x8000#16), []) := rfl
/-- 95 section 2.8: REG = 111 is no ADD. -/
theorem test_decode_extension : Decode.decode [0x83, 0xf8, 0x01] = .error .unknownOpcode := rfl
/-- 95 section 2.9. -/
theorem test_decode_truncated : Decode.decode [0xc7, 0x06, 0xe8, 0x03, 0x01] = .error (.truncated 6) := rfl

/-- The host's numbering: the first byte is bits 7 to 0. -/
theorem test_table_word : decodeTableWord 16 0xd989 = some (.movRmReg false true 0b011#3 (.register 0b001#3)) := by decide
/-- Bits above the row's width are zeros: 0xC6 with one byte is ModRM 0x00 and immediate 0. -/
theorem test_table_word_short : decodeTableWord 8 0xffc6 = some (.movImmRm false (.based 0b000#3) (.imm8 0#8)) := by decide
theorem test_table_word_refused : decodeTableWord 16 0xe980 = none := by decide
/-- 95 section 1.1, S5, as a word: bytes 03 5e 00. -/
theorem test_encode_add : Encode.encode (.addRmReg true true 0b011#3 (.based8 0b110#3 0#8)) = [0x03, 0x5e, 0x00] := by decide
/-- 95 section 2.7: bytes c7 85 85 03 5b 01. -/
theorem test_encode_mov_imm : Encode.encode (.movImmRm true (.based16 0b101#3 901#16) (.imm16 347#16)) =
    [0xc7, 0x85, 0x85, 0x03, 0x5b, 0x01] := by decide

/-! ### One step of a stream for each instruction -/

/-- 95 section 1.1, S1. -/
theorem test_step_mov_reg : firstLine [0x89, 0xd9] = some ("mov cx, bx".toList, 2) := by decide
/-- 95 section 1.1, S6. -/
theorem test_step_mov_mem : firstLine [0x8a, 0x80, 0x87, 0x13] = some ("mov al, [bx+si+4999]".toList, 4) := by decide
/-- 41_mov R151, corner cases. -/
theorem test_step_mov_imm8 : firstLine [0xb4, 0x80, 0x00] = some ("mov ah, -128".toList, 2) := by decide
/-- 41_mov R151, corner cases. -/
theorem test_step_mov_imm16 : firstLine [0xbc, 0xff, 0x7f] = some ("mov sp, 32767".toList, 3) := by decide
/-- 95 section 2.7. -/
theorem test_step_mov_imm_direct : firstLine [0xc6, 0x06, 0xe8, 0x03, 0xff] = some ("mov [1000], -1".toList, 5) := by decide
/-- 95 section 2.7. -/
theorem test_step_mov_imm_based : firstLine [0xc7, 0x85, 0x85, 0x03, 0x5b, 0x01] = some ("mov [di+901], 347".toList, 6) := by decide
/-- 95 section 1.1, S5. -/
theorem test_step_add_bp : firstLine [0x03, 0x5e, 0x00] = some ("add bx, [bp]".toList, 3) := by decide
/-- 95 section 3, P7. -/
theorem test_step_add_negative : firstLine [0x00, 0x41, 0xdb] = some ("add [bx+di-37], al".toList, 3) := by decide
/-- 95 section 1.2, T5. -/
theorem test_step_add_sign_extended : firstLine [0x83, 0xc3, 0xf4] = some ("add bx, -12".toList, 3) := by decide
/-- 95 section 2.7. -/
theorem test_step_add_imm16 : firstLine [0x81, 0x86, 0x00, 0x01, 0x00, 0x80] = some ("add [bp+256], -32768".toList, 6) := by decide

/-- The decoded value, not only its text: 95 section 1.1, S3. -/
theorem test_answer_value : answer [0x8a, 0x60, 0x04] 0 =
    some (.ok { mnem := .mov, op0 := .reg .ah, op1 := .mem (.based [.bx, .si] (some { value := 4, width := .w8 })), w := false } 3) := by
  decide
/-- A zero displacement stays in the value: 95 section 1.2, T4. -/
theorem test_answer_zero_disp16 : answer [0x8b, 0x86, 0x00, 0x00] 0 =
    some (.ok { mnem := .mov, op0 := .reg .ax, op1 := .mem (.based [.bp] (some { value := 0, width := .w16 })), w := true } 4) := by
  decide

/-! ### Errors -/

/-- 95 section 2.10, in the order of R235. -/
theorem test_error_empty : answer [] 0 = some (truncation 0 0 1) := by decide
theorem test_error_no_entry : answer [0x0f] 0 = some (.err (unknownOpcode 0)) := by decide
theorem test_error_no_modrm : answer [0x80] 0 = some (truncation 0 1 2) := by decide
theorem test_error_extension_first : answer [0x80, 0xe9] 0 = some (.err (unknownOpcode 0)) := by decide
theorem test_error_displacement : answer [0xc7, 0x80, 0x01] 0 = some (truncation 0 3 4) := by decide
theorem test_error_immediate : answer [0xc6, 0x06, 0xe8, 0x03] 0 = some (truncation 0 4 5) := by decide
/-- 95 section 2.11: offset = len, offset > len, and a decode inside the buffer. -/
theorem test_error_at_end : answer [0x89, 0xd9] 2 = some (truncation 2 0 1) := by decide
theorem test_error_past_end : answer [0x89, 0xd9] 5 = some (truncation 5 0 1) := by decide
theorem test_error_inside : answer [0x89, 0xd9, 0xb9, 0xf4] 2 = some (truncation 2 2 3) := by decide
/-- 95 section 3, P8: the failure line, and the stream stays at the offset. -/
theorem test_failure_line : firstLine [0x8a, 0x80, 0x87] =
    some ("error: TruncatedInstruction at offset 0 (available 3, required 4)".toList, 0) := by decide

/-! ### Initialisation (95 section 2.13) -/

theorem test_init_default : initReport defaultImage = some (.passed, true) := by decide
theorem test_init_wf2 : initReport (defaultImage ++ [{ rowEntry .movRmReg with modrm := false }]) =
    some (.failed { code := .invalidOperandRole, index := 5 }, false) := by decide
theorem test_init_wf3 :
    initReport (defaultImage ++ [{ rowEntry .movImmReg with roles := (.reg, .imm), reg := some (.byte0 0), imm := false }]) =
      some (.failed { code := .invalidOperandRole, index := 5 }, false) := by decide
theorem test_init_wf5 : initReport (defaultImage ++ [{ rowEntry .movRmReg with opcode := 0x89 }]) =
    some (.failed { code := .invalidFormatEntry, index := 5 }, false) := by decide
theorem test_init_wf7 : initReport (defaultImage ++ [{ rowEntry .movRmReg with ext := some 0 }]) =
    some (.failed { code := .invalidFormatEntry, index := 5 }, false) := by decide
/-- R263, WF6 and WF8 at the ends of their ranges: a shift of 5 and a position of 7 pass, 6 and 8 fail. -/
theorem test_init_shift_range :
    checkEntry [.mov] { rowEntry .movImmReg with reg := some (.byte0 5) } = none ∧
    checkEntry [.mov] { rowEntry .movImmReg with reg := some (.byte0 6) } = some .invalidFormatEntry := by decide
theorem test_init_position_range :
    checkEntry [.mov] { rowEntry .movRmReg with s := some 7 } = none ∧
    checkEntry [.mov] { rowEntry .movRmReg with s := some 8 } = some .invalidFormatEntry := by decide
/-- Two entries overlap, and the first wins. -/
theorem test_init_overlap :
    initReport [{ rowEntry .addRmReg with opcode := 0x88 }, rowEntry .movRmReg] = some (.passed, true) ∧
    Engine.decode [{ rowEntry .addRmReg with opcode := 0x88 }, rowEntry .movRmReg] defaultRegRom defaultEaRom
      (Buffer.ofBytes [0x89, 0xd9]) 0 = .ok { mnem := .add, op0 := .reg .cx, op1 := .reg .bx, w := true } 2 := by decide

/-! ### The order of the fields -/

theorem test_entries_pass : checkImage [.mov] [immFirst, noRm] = none := by decide
/-- R127, R130: the roles (IMM, RM) in their order, so the immediate (5) and then the displacement (7). -/
theorem test_imm_rm : Engine.decode [immFirst] defaultRegRom defaultEaRom (Buffer.ofBytes [0xc6, 0x40, 5, 7]) 0 =
    .ok { mnem := .mov, op0 := .imm 5, op1 := .mem (.based [.bx, .si] (some { value := 7, width := .w8 })), w := false } 4 := by
  decide
/-- R70, R127: with the roles (RM, IMM), the displacement (5) and then the immediate (7). -/
theorem test_rm_imm : Engine.decode [rowEntry .movImmRm] defaultRegRom defaultEaRom (Buffer.ofBytes [0xc6, 0x40, 5, 7]) 0 =
    .ok { mnem := .mov, op0 := .mem (.based [.bx, .si] (some { value := 5, width := .w8 })), op1 := .imm 7, w := false } 4 := by
  decide
/-- R127, R130: with no role RM no displacement is read: the immediate is the third byte. -/
theorem test_no_rm : Engine.decode [noRm] defaultRegRom defaultEaRom (Buffer.ofBytes [0x88, 0x48, 5, 7]) 0 =
    .ok { mnem := .mov, op0 := .reg .cl, op1 := .imm 5, w := false } 3 := by decide

/-! ### Taking, abandoning, interleaving (43_stream_driver R196, R198) -/

/-- R196: an element the host does not take does not come out. -/
theorem test_untaken : stateOf (step { streamOver [0x89, 0xd9] with inputs := [] }) =
    some { streamOver [0x89, 0xd9] with inputs := [] } := by decide
/-- R196: an abandoned stream keeps the elements it gave. -/
theorem test_abandon : ((stateOf (step (twoBytes .running [.abandon 0]))).bind fun t => t.streams[0]?.map fun c =>
    (c.abandoned, c.out, c.offset, c.phase)) = some (true, [], 0, .running) := by decide
/-- R198: one element from each of two streams, the second first. -/
theorem test_interleaved : (stateOf (Host.Core.run Sys2Proof.core 4 (twoStreams [1, 0]))).map (fun t =>
    t.streams.map fun c => c.out.map Renderer.elementText) = some [["mov cx, bx".toList], ["mov cl, 12".toList]] := by decide

/-! ### Rendering (95 section 2.12) -/

theorem test_render_direct_zero :
    Renderer.render { mnem := .mov, op0 := .mem (.direct 0), op1 := .reg .bx, w := true } = "mov [0], bx".toList := by decide
theorem test_render_unknown : Renderer.failureLine (unknownOpcode 2) = "error: UnknownOpcode at offset 2".toList := by decide

/-- 95 section 3, P3: the output ends with the failure line. -/
theorem test_output :
    Renderer.outputText [.line 0 { mnem := .mov, op0 := .reg .cx, op1 := .reg .bx, w := true } 2, .error (unknownOpcode 2)] =
      "mov cx, bx\nerror: UnknownOpcode at offset 2".toList := by decide

/-! ### Memory -/

theorem test_write_keeps_form : Memory.write [(2, 7#8)] 2 0#8 = [] ∧ Memory.write [(2, 7#8)] 0 1#8 = [(0, 1#8), (2, 7#8)] := by
  decide
theorem test_memRead_end : (Buffer.ofBytes [0x89, 0x00]).memRead 1 = some 0x00 ∧ (Buffer.ofBytes [0x89, 0x00]).memRead 2 = none := by
  decide

/-! ### Witnesses: states and operands that meet the hypotheses of the statements -/

theorem witness_streamServes : StreamServes (streamOver [0x89, 0xd9]) (StreamCtx.start (Buffer.ofBytes [0x89, 0xd9])) [] :=
  ⟨rfl, rfl, rfl, rfl, rfl, by decide⟩
theorem witness_portServes : PortServes (portOver [0x89, 0xd9] 0) (Buffer.ofBytes [0x89, 0xd9]) 0 [] := ⟨rfl, rfl⟩

/-- DecodeAfterEncode. -/
theorem witness_decodeAfterEncode : (Instr.addImmRm true true (.register 0b011#3) (.imm8 0xf4#8)).wellFormed = true := by decide
/-- EncodeAfterDecode. -/
theorem witness_encodeAfterDecode : Decode.decode [0xb1, 0x0c, 0x90] = .ok (.movImmReg false 0b001#3 (.imm8 12#8), [0x90]) := rfl
/-- ErrorsOfEachFormat, its first and last clause. -/
theorem witness_errorsOfEachFormat :
    Decode.decodeRow .movImmRm 0xc6 [0xc8, 0x01] = .error .unknownOpcode ∧
    Decode.decode (0xc6 :: [0xc8, 0x01]) = .error .unknownOpcode ∧ Decode.decode (0x0f :: []) = .error .unknownOpcode :=
  ⟨rfl, rfl, rfl⟩
/-- OpcodeMapByFirstByte: the ends of the two short-form ranges, and a first byte with no entry. -/
theorem witness_opcodeMap : Decode.rowOfByte 0x04 = none ∧ (0xB0 ≤ (0xB0#8).toNat ∧ (0xB7#8).toNat ≤ 0xBF) ∧ (0xB0 ≤ (0xB8#8).toNat ∧ (0xBF#8).toNat ≤ 0xBF) := by
  decide
/-- MatchTakesTheLowestIndex, both clauses. -/
theorem witness_match :
    matchEntry 0 defaultImage 0x83 = some (4, rowEntry .addImmRm) ∧
    0 < (Buffer.ofBytes [0x8c]).len ∧ ∀ F ∈ defaultImage, (Buffer.ofBytes [0x8c]).byte 0 &&& F.mask ≠ F.opcode := by decide
/-- DefaultImageOrderDoesNotMatter. -/
theorem witness_order :
    (rowEntry .movRmReg ∈ defaultImage ∧ 0x8b#8 &&& (rowEntry .movRmReg).mask = (rowEntry .movRmReg).opcode) ∧
    defaultImage.reverse.Perm defaultImage ∧ defaultImage.reverse ≠ defaultImage := by
  refine ⟨by decide, List.reverse_perm _, by decide⟩
/-- OverlapIsNoError: two entries that match one byte, below which an entry stands that does not. -/
theorem witness_overlap : ∃ image : List FormatEntry, ∃ F G, image[1]? = some F ∧ image[2]? = some G ∧ F ≠ G ∧
    0x88#8 &&& F.mask = F.opcode ∧ 0x88#8 &&& G.mask = G.opcode ∧
    (image[0]?.map fun H => decide (0x88#8 &&& H.mask ≠ H.opcode)) = some true :=
  ⟨[rowEntry .movImmReg, { rowEntry .addRmReg with opcode := 0x88 }, rowEntry .movRmReg], _, _, rfl, rfl, by decide, by decide,
    by decide, by decide⟩
/-- PassedCheckLoadsTheImage. -/
theorem witness_passed : (initWith [rowEntry .movRmReg]).initPort = .pending ∧
    (initWith [rowEntry .movRmReg]).inputs = .initialise [rowEntry .movRmReg] :: [] ∧ [rowEntry .movRmReg] ≠ [] ∧
    checkImage (initWith [rowEntry .movRmReg]).params.mnemonics [rowEntry .movRmReg] = none := by decide
/-- EmptyRomImageIsRefused. -/
theorem witness_emptyImage : (initWith []).initPort = .pending ∧ (initWith []).inputs = .initialise [] :: [] := by decide
/-- FailedCheckLeavesTheBlockUnready: an image that fails, and the idle step of a block whose check failed. -/
theorem witness_failed :
    checkImage State.beforeInit.params.mnemonics [{ rowEntry .movRmReg with modrm := false }] =
      some { code := .invalidOperandRole, index := 0 } ∧
    stateOf (step { State.beforeInit with initPort := .failed { code := .invalidOperandRole, index := 0 } }) =
      some { State.beforeInit with initPort := .failed { code := .invalidOperandRole, index := 0 } } ∧
    State.beforeInit.ready = false := by decide
/-- InitialisationHappensOnce: a second initialisation first in line, and a step that answers after the first one. -/
theorem witness_once :
    ({ State.reset with inputs := [.initialise defaultImage] } : State).initPort ≠ .pending ∧
    ({ State.reset with inputs := [.initialise defaultImage] } : State).inputs = .initialise defaultImage :: [] ∧
    State.reset.initPort ≠ .pending ∧ (stateOf (step (streamOver [0x89, 0xd9]))).isSome = true := by decide
/-- NoRequestBeforeReady: a decode request and a stream request first in line before `ready`. -/
theorem witness_beforeReady :
    ({ State.beforeInit with inputs := [.decodeRequest (Buffer.ofBytes [0x89, 0xd9]) 0] } : State).ready = false ∧
    ({ State.beforeInit with inputs := [.decodeRequest (Buffer.ofBytes [0x89, 0xd9]) 0] } : State).inputs =
      .decodeRequest (Buffer.ofBytes [0x89, 0xd9]) 0 :: [] ∧
    ({ State.beforeInit with inputs := [.streamRequest (Buffer.ofBytes [])] } : State).ready = false ∧
    ({ State.beforeInit with inputs := [.streamRequest (Buffer.ofBytes [])] } : State).inputs =
      .streamRequest (Buffer.ofBytes []) :: [] := by decide
/-- TooLongBufferIsRefused and DecodeRequestGetsOneResponse at the two sides of the bound, with OFFSET_BITS = 1. -/
theorem witness_bound : 2 ^ 1 ≤ (Buffer.ofBytes [0x89, 0xd9]).len ∧ (Buffer.ofBytes [0x89]).len < 2 ^ 1 ∧
    (Buffer.ofBytes [0x89, 0xd9]).len < 2 ^ State.reset.params.offsetBits := by decide

/-- The five completion statements and the frame: each meaning completes on a concrete stream. -/
theorem witness_movRmReg : exec (.movRmReg false true 3#3 (.register 1#3)) (streamOver [0x89, 0xd9]) =
    .next (lineEmitted (streamOver [0x89, 0xd9]) (StreamCtx.start (Buffer.ofBytes [0x89, 0xd9])) []
      { mnem := .mov, op0 := .reg .cx, op1 := .reg .bx, w := true } 2) := rfl
theorem witness_movImmReg : exec (.movImmReg false 1#3 (.imm8 12#8)) (streamOver [0xb1, 0x0c]) =
    .next (lineEmitted (streamOver [0xb1, 0x0c]) (StreamCtx.start (Buffer.ofBytes [0xb1, 0x0c])) []
      { mnem := .mov, op0 := .reg .cl, op1 := .imm 12, w := false } 2) := rfl
theorem witness_movImmRm : exec (.movImmRm false (.based 3#3) (.imm8 7#8)) (streamOver [0xc6, 0x03, 0x07]) =
    .next (lineEmitted (streamOver [0xc6, 0x03, 0x07]) (StreamCtx.start (Buffer.ofBytes [0xc6, 0x03, 0x07])) []
      { mnem := .mov, op0 := .mem (.based [.bp, .di] none), op1 := .imm 7, w := false } 3) := rfl
theorem witness_addRmReg : exec (.addRmReg false true 3#3 (.register 0#3)) (portOver [0x01, 0xd8] 0) =
    .next (answered (portOver [0x01, 0xd8] 0) [] (.ok { mnem := .add, op0 := .reg .ax, op1 := .reg .bx, w := true } 2)) := rfl
theorem witness_addImmRm : exec (.addImmRm true true (.register 3#3) (.imm8 0xf4#8)) (portOver [0x83, 0xc3, 0xf4] 0) =
    .next (answered (portOver [0x83, 0xc3, 0xf4] 0) []
      (.ok { mnem := .add, op0 := .reg .bx, op1 := .imm (-12), w := true } 3)) := rfl

/-- StepRunsTheDecodedInstruction: bytes that decode and bytes that do not, for the stream and for the port (whose buffer
the default OFFSET_BITS admits, `witness_bound`). -/
theorem witness_stepRuns :
    (streamOver [0x89, 0xd9]).fmtRom = defaultImage ∧ (portOver [0x89, 0xd9] 0).fmtRom = defaultImage ∧
    Decode.decode (fetchBytes (Buffer.ofBytes [0x89, 0xd9]) 0) = .ok (.movRmReg false true 3#3 (.register 1#3), []) ∧
    Decode.decode (fetchBytes (Buffer.ofBytes [0x0f]) 0) = .error .unknownOpcode :=
  ⟨rfl, rfl, rfl, rfl⟩
theorem witness_stepRejects : StreamServes (streamOver [0x0f]) (StreamCtx.start (Buffer.ofBytes [0x0f])) [] ∧
    PortServes (portOver [0x0f] 0) (Buffer.ofBytes [0x0f]) 0 [] := ⟨⟨rfl, rfl, rfl, rfl, rfl, by decide⟩, rfl, rfl⟩
/-- FetchWordRunsTheTableWord. -/
theorem witness_fetchWord : decodeTableWord 24 0xf4c383 = some (.addImmRm true true (.register 3#3) (.imm8 0xf4#8)) := by decide
/-- SequencerStepDoesOneOfThree: the end, a success, an error. -/
theorem witness_sequencer :
    (streamOver []).inputs = .take :: [] ∧ (StreamCtx.start (Buffer.ofBytes [])).offset = (Buffer.ofBytes []).len ∧
    Engine.decode defaultImage defaultRegRom defaultEaRom (Buffer.ofBytes [0x89, 0xd9]) 0 =
      .ok { mnem := .mov, op0 := .reg .cx, op1 := .reg .bx, w := true } 2 ∧
    Engine.decode defaultImage defaultRegRom defaultEaRom (Buffer.ofBytes [0x8c]) 0 = .err (unknownOpcode 0) := by decide
/-- StreamRequestStartsAtZero. -/
theorem witness_streamRequest :
    ({ State.reset with inputs := [.streamRequest (Buffer.ofBytes [])] } : State).ready = true ∧
    (Buffer.ofBytes []).len < 2 ^ State.reset.params.offsetBits := by decide
/-- EmptyBufferEndsAtOnce, and EveryStreamTerminates at the shortest buffer. -/
theorem witness_emptyBuffer : (streamOver []).inputs = .take :: [] ∧ (Buffer.ofBytes []).len = 0 ∧
    (streamOver []).inputs = List.replicate ((Buffer.ofBytes []).len + 1) .take ++ [] ∧
    (streamOver []).streams[(streamOver []).turn]? =
      some { buf := Buffer.ofBytes [], offset := 0, phase := .running, out := [], abandoned := false } := by decide
/-- EveryStreamTerminates. -/
theorem witness_terminates :
    ({ streamOver [0x89] with inputs := [.take, .take] } : State).ready = true ∧
    ({ streamOver [0x89] with inputs := [.take, .take] } : State).inputs =
      List.replicate ((Buffer.ofBytes [0x89]).len + 1) .take ++ [] ∧
    (streamOver [0x89]).streams[(streamOver [0x89]).turn]? =
      some { buf := Buffer.ofBytes [0x89], offset := 0, phase := .running, out := [], abandoned := false } := by decide
/-- ErrorEndsTheStreamForGood: a step that answers, a resumption and a take of the ended stream. -/
theorem witness_errorEnds : ((afterError []).streams[0]?.map StreamCtx.phase) = some .endedByError ∧
    stateOf (step (afterError [])) = some (afterError []) ∧ (afterError [.resume 0]).inputs = .resume 0 :: [] ∧
    (afterError [.take]).inputs = .take :: [] ∧ (afterError [.take]).turn = 0 := by decide
/-- ResumeSelectsTheStream. -/
theorem witness_resume :
    ((twoBytes .endedAtEnd [.resume 0]).streams[0]?.map fun c => (c.phase, c.abandoned)) = some (.endedAtEnd, false) ∧
    (twoBytes .endedAtEnd [.resume 0]).inputs = .resume 0 :: [] := by decide
/-- ElementsComeOutOnlyAsTaken: a step that takes from the stream selected, and one that takes nothing. -/
theorem witness_taken : (stateOf (step (streamOver [0x89, 0xd9]))).isSome = true ∧
    (streamOver [0x89, 0xd9]).streams[(streamOver [0x89, 0xd9]).turn]? = some (StreamCtx.start (Buffer.ofBytes [0x89, 0xd9])) ∧
    (stateOf (step (twoBytes .running [.resume 0]))).isSome = true ∧ (twoBytes .running [.resume 0]).streams.length = 1 := by decide
/-- AbandonedStreamStaysAsItIs: the abandonment, a step that answers after it, and a change of its buffer's last byte. -/
theorem witness_abandoned :
    (twoBytes .running [.abandon 0]).inputs = .abandon 0 :: [] ∧ (twoBytes .running [.abandon 0]).streams.length = 1 ∧
    ((stateOf (step (twoBytes .running [.abandon 0, .changeByte 0 1 0xff]))).bind fun t => (t.streams[0]?.map fun c =>
      (t.inputs, c.abandoned, decide (1 < c.buf.len), (stateOf (step t)).isSome))) =
        some ([.changeByte 0 1 0xff], true, true, true) := by decide
/-- IdleBlockHoldsItsState. -/
theorem witness_idle : State.reset.inputs = [] := by decide
/-- BufferChangeOnlyOutsideAStream: the first and the last byte, in a running and in an ended stream. -/
theorem witness_bufferChange :
    (twoBytes .running [.changeByte 0 0 0xff]).inputs = .changeByte 0 0 0xff :: [] ∧
    ((twoBytes .running []).streams[0]?.map fun c => (c.buf.wf, decide (0 < c.buf.len), decide (c.buf.byte 0 ≠ 0xff))) =
      some (true, true, true) ∧
    ((twoBytes .running []).streams[0]?.map fun c => (c.phase, c.abandoned)) = some (.running, false) ∧
    ((twoBytes .endedAtEnd []).streams[0]?.map fun c => (c.phase, c.buf.wf, decide (1 < c.buf.len))) =
      some (.endedAtEnd, true, true) := by decide
/-- BlockNeverWritesABuffer: a step of a stream is no change of a byte. -/
theorem witness_neverWrites : (streamOver [0x89, 0xd9]).inputs = [.take] ∧ (stateOf (step (streamOver [0x89, 0xd9]))).isSome = true ∧
    (streamOver [0x89, 0xd9]).streams[0]? = some (StreamCtx.start (Buffer.ofBytes [0x89, 0xd9])) := by decide
/-- StepKeepsInvariant: a state with a running stream meets the invariant, and its step answers. -/
theorem witness_invariant : Inv (streamOver [0x89, 0xd9]) ∧ (stateOf (step (streamOver [0x89, 0xd9]))).isSome = true := by
  refine ⟨⟨rfl, rfl, by decide, fun _ => by decide, fun h => absurd h (by decide), rfl, ?_, by decide⟩, by decide⟩
  intro c hc
  have h : c = StreamCtx.start (Buffer.ofBytes [0x89, 0xd9]) := List.mem_singleton.1 hc
  subst h
  exact ⟨by decide, by decide, by decide, by decide, by decide⟩
/-- StreamsAreIndependent: the same stream beside another one. -/
theorem witness_independent :
    ({ twoStreams [] with turn := 0, inputs := [.take] } : State).streams[0]? = (streamOver [0x89, 0xd9]).streams[0]? ∧
    ({ twoStreams [] with turn := 0, inputs := [.take] } : State).inputs = .take :: [] ∧
    (streamOver [0x89, 0xd9]).turn = 0 ∧ (streamOver [0x89, 0xd9]).inputs = .take :: [] := by decide
/-- InterleavedStreamsRunAsAlone: two streams, two elements from each, in two orders. -/
theorem witness_interleaved : (twoStreams [0, 1, 1, 0]).ready = true ∧ (twoStreams [0, 1, 1, 0]).inputs = takes [0, 1, 1, 0] ++ [] ∧
    (stateOf (Host.Core.run Sys2Proof.core (2 * [0, 1, 1, 0].length) (twoStreams [0, 1, 1, 0]))).isSome = true ∧
    [1, 0, 1, 0].Perm [0, 1, 1, 0] := by decide
/-- ResponseDependsOnTheInstructionBytes: a byte from the seventh on that differs; a longer buffer; two requesters. -/
theorem witness_window : (∀ i, 0 ≤ i → i < min (Buffer.ofBytes [1, 2, 3, 4, 5, 6, 7]).len (0 + 6) →
    (Buffer.ofBytes [1, 2, 3, 4, 5, 6, 8]).byte i = (Buffer.ofBytes [1, 2, 3, 4, 5, 6, 7]).byte i) ∧
    Buffer.ofBytes [1, 2, 3, 4, 5, 6, 8] ≠ Buffer.ofBytes [1, 2, 3, 4, 5, 6, 7] := by
  refine ⟨fun i _ hi => ?_, by decide⟩
  have h6 : i < 6 := hi
  have h : ∀ j, j < 6 → (Buffer.ofBytes [1, 2, 3, 4, 5, 6, 8]).byte j = (Buffer.ofBytes [1, 2, 3, 4, 5, 6, 7]).byte j := by decide
  exact h i h6
theorem witness_instructionBytes : Engine.decode defaultImage defaultRegRom defaultEaRom (Buffer.ofBytes [0x89, 0xd9]) 0 =
    .ok { mnem := .mov, op0 := .reg .cx, op1 := .reg .bx, w := true } 2 ∧ 0 + 2 ≤ (Buffer.ofBytes [0x89, 0xd9, 0x0f]).len ∧
    (Buffer.ofBytes [0x89, 0xd9, 0x0f]).byte 0 = (Buffer.ofBytes [0x89, 0xd9]).byte 0 ∧
    (Buffer.ofBytes [0x89, 0xd9, 0x0f]).byte 1 = (Buffer.ofBytes [0x89, 0xd9]).byte 1 := by decide
/-- ConsumedIsTheFormatLength, with `witness_instructionBytes`. -/
theorem witness_formatLength : matchEntry 0 defaultImage ((Buffer.ofBytes [0x89, 0xd9]).byte 0) = some (0, rowEntry .movRmReg) ∧
    checkEntry [.mov, .add] (rowEntry .movRmReg) = none ∧ hasRole (rowEntry .movRmReg) .rm = true := by decide
/-- ConsumedIsTheFormatLength for an entry with a ModRM byte and no role RM (its decode: `test_no_rm`). -/
theorem witness_formatLength_noRm : matchEntry 0 [noRm] ((Buffer.ofBytes [0x88, 0x48, 5, 7]).byte 0) = some (0, noRm) ∧
    checkEntry [.mov] noRm = none ∧ noRm.modrm = true ∧ hasRole noRm .rm = false := by decide
/-- FieldsComeInLayoutOrder: the default image; entries for which the rules differ, with a ModRM byte that gives no
displacement byte. (ReadingAheadChangesNoResponse: `witness_portServes`, `witness_streamServes`,
`witness_bound`.) -/
theorem witness_layoutOrder : checkImage [.mov, .add] defaultImage = none ∧
    (∀ F ∈ defaultImage, (F.modrm = true → hasRole F .rm = true) ∧ F.roles ≠ (.imm, .rm)) ∧
    checkImage [.mov] [immFirst, noRm] = none ∧ Engine.dispLength 0x00 = 0 ∧ Engine.dispLength 0xc1 = 0 := by decide
/-- TruncationRecordsThreeFields: the two-byte read that lacks one byte, an error of that code, and offset = len. -/
theorem witness_truncation : 3 + 2 > (Buffer.ofBytes [0x8a, 0x80, 0x87, 0x13]).len ∧
    Engine.decode defaultImage defaultRegRom defaultEaRom (Buffer.ofBytes [0x8a, 0x80, 0x87]) 0 = truncation 0 3 4 ∧
    (Buffer.ofBytes [0x89, 0xd9]).len ≤ 2 := by decide
/-- UnknownOpcodeHasTwoCauses. -/
theorem witness_unknown : (∀ F ∈ defaultImage, F.ext ≠ none → F.modrm = true) ∧
    Engine.decode defaultImage defaultRegRom defaultEaRom (Buffer.ofBytes [0x80, 0xe9, 0x05]) 0 = .err (unknownOpcode 0) := by decide
/-- SignBitChangesNoByteOperand: `82 c0 f4` and `80 c0 f4` (95 section 1.2, T5). -/
theorem witness_signBit : (Buffer.ofBytes [0x82, 0xc0, 0xf4]).len = (Buffer.ofBytes [0x80, 0xc0, 0xf4]).len ∧
    (Buffer.ofBytes [0x80, 0xc0, 0xf4]).byte 0 = 0x80#8 ∧ (Buffer.ofBytes [0x82, 0xc0, 0xf4]).byte 0 = 0x82#8 ∧
    ∀ i, 0 < i → (Buffer.ofBytes [0x82, 0xc0, 0xf4]).byte i = (Buffer.ofBytes [0x80, 0xc0, 0xf4]).byte i := by
  refine ⟨by decide, by decide, by decide, fun i hi => ?_⟩
  match i, hi with
  | 1, _ => rfl
  | 2, _ => rfl
  | _ + 3, _ => rfl
/-- NumeralsReadBack and MemoryOperandText at the least displacement and number, with one base and with two. -/
theorem witness_numeral : 0 < 1 ∧ Renderer.decimal 1 = ['1'] ∧
    Renderer.operandText (.mem (.based [.bp] (some { value := -1, width := .w8 }))) = "[bp-1]".toList ∧
    Renderer.operandText (.mem (.based [.bp, .di] (some { value := 1, width := .w8 }))) = "[bp+di+1]".toList ∧
    Renderer.operandText (.mem (.based [.bp, .di] none)) = "[bp+di]".toList := by decide

end Sys2Proof.Tests
end

section
/-! PROOFS. The refusals of the scope's bounds (00_scope R10, R26): an image with no entry, and a buffer with offsets
beyond OFFSET_BITS. -/

namespace Sys2Proof.Proofs

open Machine

/-! What a step does with the three host actions that are checked before the block serves anything. -/

theorem step_of_initialise {s : State} {image : List FormatEntry} {rest : List HostInput}
    (h : s.inputs = .initialise image :: rest) : step s = initialise s image := by
  simp only [step, h]

theorem step_of_decodeRequest {s : State} {buf : Buffer} {offset : Nat} {rest : List HostInput}
    (h : s.inputs = .decodeRequest buf offset :: rest) : step s = s.whenAdmitted buf (serveDecode s buf offset) := by
  simp only [step, h]

theorem step_of_streamRequest {s : State} {buf : Buffer} {rest : List HostInput}
    (h : s.inputs = .streamRequest buf :: rest) : step s = openStream s buf := by
  simp only [step, h]

theorem initialise_nil {s : State} (h : s.initPort = .pending) : initialise s [] = .refused .emptyRomImage := by
  rw [initialise, if_pos h, if_pos rfl]

/-- Admission does not look at what the request would do: a buffer past the bound is refused whatever `k` is. -/
theorem whenAdmitted_of_tooLong {s : State} {buf : Buffer} (hready : s.ready = true)
    (hlen : 2 ^ s.params.offsetBits ≤ buf.len) (k : Result) : s.whenAdmitted buf k = .refused .bufferTooLong := by
  rw [State.whenAdmitted, if_pos hready, if_neg (Nat.not_lt.2 hlen)]

/-- Settles O17: the port is pending, so the empty list is the first thing `initialise` tests. -/
theorem emptyRomImageIsRefused : Obligations.EmptyRomImageIsRefused := by
  intro s rest hport hin
  rw [step_of_initialise hin, initialise_nil hport]

/-- Settles O34: both requests go through the same admission, which the buffer fails. -/
theorem tooLongBufferIsRefused : Obligations.TooLongBufferIsRefused := by
  intro s buf hready hlen
  constructor
  · intro offset rest hin
    rw [step_of_decodeRequest hin, whenAdmitted_of_tooLong hready hlen]
  · intro rest hin
    rw [step_of_streamRequest hin, openStream, whenAdmitted_of_tooLong hready hlen]

/-- The premises of `tooLongBufferIsRefused` hold together in a whole state: OFFSET_BITS is 1, and the buffer has the
least length past the bound. -/
theorem witness_tooLongBuffer :
    step { State.reset with
      params := { State.reset.params with offsetBits := 1 },
      inputs := [.streamRequest (Buffer.ofBytes [0x89, 0xd9])] } = .refused .bufferTooLong :=
  (tooLongBufferIsRefused _ (Buffer.ofBytes [0x89, 0xd9]) rfl (by decide)).2 [] rfl

end Sys2Proof.Proofs
end

section
/-! PROOFS. The errors of a decode carry the decode's own offset (30_encoding R232, 10_state R30), for any ROM image. -/

namespace Sys2Proof.Proofs

open Machine Laws

@[simp] theorem truncated_offset (len start cur n : Nat) : (truncated len start cur n).offset = start := rfl

@[simp] theorem unknownOpcode_offset (start : Nat) : (unknownOpcode start).offset = start := rfl

theorem readByte_error_offset {buf : Buffer} {start cur : Nat} {e : DecodeError}
    (h : Engine.readByte buf start cur = .error e) : e.offset = start := by
  unfold Engine.readByte at h
  split at h
  · cases h; rfl
  · cases h

theorem readHalf_error_offset {buf : Buffer} {start cur : Nat} {e : DecodeError}
    (h : Engine.readHalf buf start cur = .error e) : e.offset = start := by
  unfold Engine.readHalf at h
  split at h
  · cases h; rfl
  · cases h

theorem readRm_error_offset {buf : Buffer} {start cur : Nat} {mod : BitVec 2} {rm : BitVec 3} {e : DecodeError}
    (h : Engine.readRm buf start cur mod rm = .error e) : e.offset = start := by
  unfold Engine.readRm at h
  split_ifs at h
  · split at h
    · next hread => cases h; exact readHalf_error_offset hread
    · cases h
  · split at h
    · next hread => cases h; exact readByte_error_offset hread
    · cases h
  · split at h
    · next hread => cases h; exact readHalf_error_offset hread
    · cases h

theorem readImm_error_offset {buf : Buffer} {start cur : Nat} {w s : Bool} {e : DecodeError}
    (h : Engine.readImm buf start cur w s = .error e) : e.offset = start := by
  unfold Engine.readImm at h
  split_ifs at h
  · split at h
    · next hread => cases h; exact readByte_error_offset hread
    · cases h
  · split at h
    · next hread => cases h; exact readHalf_error_offset hread
    · cases h

theorem resolveAt_error_offset {regs : RegRom} {ea : EaRom} {buf : Buffer} {off cur : Nat} {w s : Bool}
    {reg rm : BitVec 3} {mod : BitVec 2} {r : Role} {e : DecodeError}
    (h : resolveAt regs ea buf off w s reg mod rm cur r = .error e) : e.offset = off := by
  cases r with
  | reg => cases h
  | rm =>
    simp only [resolveAt] at h
    split at h
    · next hread => cases h; exact readRm_error_offset hread
    · cases h
  | imm =>
    simp only [resolveAt] at h
    split at h
    · next hread => cases h; exact readImm_error_offset hread
    · cases h

theorem rolesAt_err_offset {regs : RegRom} {ea : EaRom} {buf : Buffer} {F : FormatEntry} {off cur : Nat}
    {reg : BitVec 3} {m : Byte} {e : DecodeError} (h : rolesAt regs ea buf F off cur reg m = .err e) :
    e.offset = off := by
  unfold rolesAt at h
  split at h
  · next hfirst => cases h; exact resolveAt_error_offset hfirst
  · split at h
    · next hsecond => cases h; exact resolveAt_error_offset hsecond
    · cases h

theorem entryAt_err_offset {regs : RegRom} {ea : EaRom} {buf : Buffer} {F : FormatEntry} {off : Nat}
    {e : DecodeError} (h : entryAt regs ea buf F off = .err e) : e.offset = off := by
  unfold entryAt at h
  split_ifs at h
  · cases h; rfl
  · exact rolesAt_err_offset h
  · cases h; rfl
  · exact rolesAt_err_offset h

theorem decode_err_offset {fmt : List FormatEntry} {regs : RegRom} {ea : EaRom} {buf : Buffer} {off : Nat}
    {e : DecodeError} (h : Engine.decode fmt regs ea buf off = .err e) : e.offset = off := by
  rw [engine_decode_eq] at h
  split at h
  · split at h
    · cases h; rfl
    · exact entryAt_err_offset h
  · cases h; rfl

end Sys2Proof.Proofs
end

section
/-! PROOFS. What holds of every stream is kept by everything that happens to a stream (43_stream_driver R190 to R196,
20_memory R57). -/

namespace Sys2Proof.Proofs

open Machine Safety Laws

/-- Elements put after a list without an error start where the list ends. -/
theorem tileEnd_append (ys : List Element) :
    ∀ (xs : List Element) (start : Nat), xs.any Element.isError = false →
      tileEnd start (xs ++ ys) = (tileEnd start xs).bind (tileEnd · ys)
  | [], _, _ => rfl
  | .line offset _ consumed :: xs, start, h => by
    simp only [List.cons_append, tileEnd]
    split
    · exact tileEnd_append ys xs _ h
    · rfl
  | .error _ :: _, _, h => by cases h

theorem streamInv_start {buf : Buffer} (h : buf.wf = true) : StreamInv (StreamCtx.start buf) where
  bufWf := h
  inBuffer := Nat.zero_le _
  tiles := rfl
  atEnd hend := by cases hend
  errorEnded := rfl

section Stream
variable {c : StreamCtx} (h : StreamInv c)
include h

theorem streamInv_abandoned : StreamInv { c with abandoned := true } :=
  ⟨h.bufWf, h.inBuffer, h.tiles, h.atEnd, h.errorEnded⟩

/-- A write keeps the length, so it touches only the canonical form. -/
theorem streamInv_write {i : Nat} (hi : i < c.buf.len) (b : Byte) : StreamInv { c with buf := c.buf.write i b } :=
  ⟨buffer_write_wf h.bufWf hi b, h.inBuffer, h.tiles, h.atEnd, h.errorEnded⟩

variable (hrun : c.phase = .running)
include hrun

/-- A running stream has emitted no error. -/
theorem noError_of_running : c.out.any Element.isError = false := by
  rw [h.errorEnded, hrun]; rfl

theorem streamInv_finish (hoff : c.offset = c.buf.len) : StreamInv c.finish where
  bufWf := h.bufWf
  inBuffer := h.inBuffer
  tiles := h.tiles
  atEnd _ := hoff
  errorEnded := by simp [noError_of_running h hrun]

theorem streamInv_emit_ok {n : Nat} (hn : 1 ≤ n) (hlen : c.offset + n ≤ c.buf.len) (i : Decoded) :
    StreamInv (c.emit (.ok i n)) where
  bufWf := h.bufWf
  inBuffer := hlen
  tiles := by
    rw [emit_ok_out, tileEnd_append _ _ _ (noError_of_running h hrun), h.tiles]
    simp [tileEnd, hn]
  atEnd hend := by rw [emit_ok_phase, hrun] at hend; cases hend
  errorEnded := by simp [noError_of_running h hrun, hrun, Element.isError]

theorem streamInv_emit_err {e : DecodeError} (he : e.offset = c.offset) : StreamInv (c.emit (.err e)) where
  bufWf := h.bufWf
  inBuffer := h.inBuffer
  tiles := by
    rw [emit_err_out, tileEnd_append _ _ _ (noError_of_running h hrun), h.tiles]
    simp [tileEnd, he]
  atEnd hend := by cases hend
  errorEnded := by simp [Element.isError]

/-- The sequencer's step: the bounds of a decode give a `Line`'s, and an error is at the offset reached. -/
theorem streamInv_emit_decode (fmt : List FormatEntry) (regs : RegRom) (ea : EaRom) :
    StreamInv (c.emit (Engine.decode fmt regs ea c.buf c.offset)) := by
  rcases hr : Engine.decode fmt regs ea c.buf c.offset with ⟨i, n⟩ | e
  · obtain ⟨hn, -, hlen⟩ := decode_ok_bound hr
    exact streamInv_emit_ok h hrun hn hlen i
  · exact streamInv_emit_err h hrun (decode_err_offset hr)

end Stream

end Sys2Proof.Proofs
end

section
/-! PROOFS. The invariant of the block: at reset (10_state R37), and from step to step. -/

namespace Sys2Proof.Proofs

open Machine Safety Laws

theorem forall_mem_set {α : Type} {P : α → Prop} {l : List α} (h : ∀ x ∈ l, P x) (k : Nat) {a : α} (ha : P a) :
    ∀ x ∈ l.set k a, P x := fun x hx =>
  (List.mem_or_eq_of_mem_set hx).elim (h x) fun hxa => hxa ▸ ha

theorem forall_mem_modify {α : Type} {P : α → Prop} {l : List α} (h : ∀ x ∈ l, P x) {k : Nat} {a : α}
    (ha : l[k]? = some a) {f : α → α} (hf : P (f a)) : ∀ x ∈ l.modify k f, P x :=
  modify_eq_set ha f ▸ forall_mem_set h k hf

section Invariant
variable {s : State} (h : Inv s)
include h

theorem streamInv_of_streamAt {k : Nat} {c : StreamCtx} (hc : s.streams[k]? = some c) : StreamInv c :=
  h.streams c (List.mem_of_getElem? hc)

/-- Streams are opened only by a ready block. -/
theorem ready_of_streamAt {k : Nat} {c : StreamCtx} (hc : s.streams[k]? = some c) : s.ready = true := by
  by_contra hr
  rw [(h.unready (by simpa using hr)).1] at hc
  cases hc

/-- An initialisation still to come finds the block unready. -/
theorem unready_of_pending (hport : s.initPort = .pending) : s.ready = false := by
  by_contra hr
  have hpassed := h.readyIff.1 (by simpa using hr)
  rw [hport] at hpassed
  cases hpassed

/-- A ready block may change its streams (to streams that meet their invariant), its turn and its responses, and take
inputs off the queue. -/
theorem inv_of_ready (hready : s.ready = true) {streams : List StreamCtx} (hstreams : ∀ c ∈ streams, StreamInv c)
    {inputs : List HostInput} (hinputs : inputs ⊆ s.inputs) {latches : Option Latches} (hlatches : latches = none)
    (turn : Nat) (responses : List Response) :
    Inv { s with streams := streams, inputs := inputs, latches := latches, turn := turn, responses := responses } where
  regRom := h.regRom
  eaRom := h.eaRom
  readyIff := h.readyIff
  image := h.image
  unready hr := by rw [hready] at hr; cases hr
  latches := hlatches
  streams := hstreams
  inputs x hx := h.inputs x (hinputs hx)

/-- The image passed its check (R265). -/
theorem inv_of_passed {image : List FormatEntry} (hne : image ≠ [])
    (hcheck : checkImage s.params.mnemonics image = none) {inputs : List HostInput} (hinputs : inputs ⊆ s.inputs) :
    Inv { s with fmtRom := image, ready := true, initPort := .passed, inputs := inputs } where
  regRom := h.regRom
  eaRom := h.eaRom
  readyIff := iff_of_true rfl rfl
  image _ := ⟨hne, hcheck⟩
  unready hr := by cases hr
  latches := h.latches
  streams := h.streams
  inputs x hx := h.inputs x (hinputs hx)

/-- The image failed its check: the block stays unready (R265). -/
theorem inv_of_failed (hport : s.initPort = .pending) (e : InitError) {inputs : List HostInput}
    (hinputs : inputs ⊆ s.inputs) : Inv { s with initPort := .failed e, inputs := inputs } where
  regRom := h.regRom
  eaRom := h.eaRom
  readyIff := by simp [unready_of_pending h hport]
  image := h.image
  unready := h.unready
  latches := h.latches
  streams := h.streams
  inputs x hx := h.inputs x (hinputs hx)

end Invariant

/-- Settles O43: along the cases of a step, each of which changes only streams, responses and the queue, or ends the
initialisation. -/
theorem stepKeepsInvariant : Obligations.StepKeepsInvariant := by
  intro s t h hstep
  have rest_subset {x : HostInput} {rest : List HostInput} (hin : s.inputs = x :: rest) : rest ⊆ s.inputs :=
    hin ▸ List.subset_cons_self x rest
  rcases step_cases hstep with ⟨-, rfl⟩ | ⟨c, rest, hin, hc, -, -, rfl⟩ | ⟨c, rest, hin, hc, hrun, -, hend, rfl⟩ |
    ⟨c, rest, hserve, rfl⟩ | ⟨buf, off, rest, hserve, -, rfl⟩ | ⟨image, rest, hin, -, hne, hcheck, rfl⟩ |
    ⟨image, rest, e, hin, hport, -, rfl⟩ | ⟨buf, rest, hin, hready, -, rfl⟩ | ⟨k, c, rest, hin, hc, -, -, rfl⟩ |
    ⟨k, c, rest, hin, hc, rfl⟩ | ⟨k, i, b, c, rest, hin, hc, hi, -, rfl⟩
  case inl => exact h
  · exact inv_of_ready h (ready_of_streamAt h hc) h.streams (List.tail_subset _) h.latches _ _
  · have hfin := streamInv_finish (streamInv_of_streamAt h hc) hrun hend
    exact inv_of_ready h (ready_of_streamAt h hc) (forall_mem_modify h.streams hc hfin) (List.tail_subset _) h.latches _ _
  · obtain ⟨hready, -, hc, hrun, -, -⟩ := hserve
    have hemit := streamInv_emit_decode (streamInv_of_streamAt h hc) hrun s.fmtRom s.regRom s.eaRom
    exact inv_of_ready h hready (forall_mem_modify h.streams hc hemit) (List.tail_subset _) rfl _ _
  · exact inv_of_ready h hserve.1 h.streams (List.tail_subset _) rfl _ _
  · exact inv_of_passed h hne hcheck (rest_subset hin)
  · exact inv_of_failed h hport e (rest_subset hin)
  · have hbuf : buf.wf = true := h.inputs (.streamRequest buf) (hin ▸ List.mem_cons_self)
    exact inv_of_ready h hready
      (List.forall_mem_append.2 ⟨h.streams, List.forall_mem_singleton.2 (streamInv_start hbuf)⟩) (rest_subset hin) h.latches _ _
  · exact inv_of_ready h (ready_of_streamAt h hc) h.streams (rest_subset hin) h.latches _ _
  · have hab := streamInv_abandoned (streamInv_of_streamAt h hc)
    exact inv_of_ready h (ready_of_streamAt h hc) (forall_mem_set h.streams k hab) (rest_subset hin) h.latches _ _
  · have hwrite := streamInv_write (streamInv_of_streamAt h hc) hi b
    exact inv_of_ready h (ready_of_streamAt h hc) (forall_mem_set h.streams k hwrite) (rest_subset hin) h.latches _ _

end Sys2Proof.Proofs
end

section
/-! PROOFS. What a step leaves unchanged, and what a decode request changes (10_state R23, R30, R35). -/

namespace Sys2Proof.Proofs

open Machine Safety Laws

theorem getElem?_modify_of_some {α : Type} {l : List α} {k : Nat} {a : α} (h : l[k]? = some a) (i : Nat) (f : α → α) :
    (l.modify i f)[k]? = some (if i = k then f a else a) := by
  rw [List.getElem?_modify, h]; rfl

theorem deliver_stream_streamAt {s : State} {k : Nat} {c : StreamCtx} (hc : s.streams[k]? = some c) (r : Response) :
    (s.deliver r .stream).streams[k]? = some (if s.turn = k then c.emit r else c) :=
  getElem?_modify_of_some hc s.turn _

/-- Settles O32: the step is the response of the decode, which the port gets. -/
theorem decodeRequestGetsOneResponse : Obligations.DecodeRequestGetsOneResponse := by
  intro s buf offset rest hserve hlen
  rw [step_port hserve hlen, respond_port hserve]

/-- Settles O26: every meaning is one successful response, for the served stream or for the decode port. -/
theorem meaningsLeaveTheRestUnchanged : Obligations.MeaningsLeaveTheRestUnchanged := by
  intro i s t h
  rw [exec_eq_respond] at h
  obtain ⟨-, ⟨c, rest, ⟨-, hin, -⟩, rfl⟩ | ⟨buf, off, rest, ⟨-, hin⟩, rfl⟩⟩ := respond_next h
  · refine ⟨rfl, rfl, rfl, rfl, rfl, rfl, rfl, rfl, List.length_modify .., fun k c hc => ?_, .inl ⟨?_, rfl⟩⟩
    · refine ⟨_, deliver_stream_streamAt hc _, ?_⟩
      split
      · next hk => exact ⟨rfl, fun _ => rfl, rfl, rfl, fun hne => absurd hk.symm hne⟩
      · exact ⟨rfl, fun _ => rfl, rfl, rfl, fun _ => rfl⟩
    · rw [deliver_inputs, hin]; rfl
  · refine ⟨rfl, rfl, rfl, rfl, rfl, rfl, rfl, rfl, rfl, fun k c hc => ?_, .inr ⟨⟨buf, off, ?_⟩, rfl, _, rfl⟩⟩
    · exact ⟨c, hc, rfl, fun _ => rfl, rfl, rfl, fun _ => rfl⟩
    · rw [deliver_inputs, hin]; rfl

/-- A change of one stream that keeps its buffer keeps every stream's buffer. -/
theorem buffer_of_modify {l : List StreamCtx} {k : Nat} {c : StreamCtx} (hc : l[k]? = some c) (i : Nat)
    {f : StreamCtx → StreamCtx} (hf : (f c).buf = c.buf) : ∃ c', (l.modify i f)[k]? = some c' ∧ c'.buf = c.buf := by
  refine ⟨_, getElem?_modify_of_some hc i f, ?_⟩
  split
  · exact hf
  · rfl

/-- Settles O42: the sequencer, an abandonment and a new stream touch no buffer, and the other steps no stream. -/
theorem blockNeverWritesABuffer : Obligations.BlockNeverWritesABuffer := by
  intro s t k c hstep hno hc
  rcases step_cases hstep with ⟨-, rfl⟩ | ⟨_, _, -, -, -, -, rfl⟩ | ⟨_, _, -, -, -, -, -, rfl⟩ | ⟨_, _, -, rfl⟩ |
    ⟨_, _, _, -, -, rfl⟩ | ⟨_, _, -, -, -, -, rfl⟩ | ⟨_, _, _, -, -, -, rfl⟩ | ⟨_, _, -, -, -, rfl⟩ |
    ⟨_, _, _, -, -, -, -, rfl⟩ | ⟨j, d, _, -, hd, rfl⟩ | ⟨j, i, b, _, rest, hin, -, -, -, -⟩
  case inl => exact ⟨c, hc, rfl⟩
  · exact ⟨c, hc, rfl⟩
  · exact buffer_of_modify hc s.turn (finish_buf c)
  · exact buffer_of_modify hc s.turn (emit_buf c _)
  · exact ⟨c, hc, rfl⟩
  · exact ⟨c, hc, rfl⟩
  · exact ⟨c, hc, rfl⟩
  · obtain ⟨hlt, -⟩ := List.getElem?_eq_some_iff.1 hc
    exact ⟨c, (List.getElem?_append_left hlt).trans hc, rfl⟩
  · exact ⟨c, hc, rfl⟩
  · rw [← modify_eq_set hd fun d => { d with abandoned := true }]
    exact buffer_of_modify hc j rfl
  · exact absurd hin (hno j i b rest)

end Sys2Proof.Proofs
end

section
/-! PROOFS. The reset state: the block after initialisation with the default image, where the invariant holds
(10_state R37, 70_reset_and_hazards R261, R263). -/

namespace Sys2Proof.Proofs

open Machine Safety

/-- The default image passes the check of R263. -/
theorem checkImage_defaultImage : checkImage [.mov, .add] defaultImage = none := by decide

theorem initialise_of_checked {s : State} {image : List FormatEntry} (hport : s.initPort = .pending) (hne : image ≠ [])
    (hcheck : checkImage s.params.mnemonics image = none) :
    initialise s image = .next { s with fmtRom := image, ready := true, initPort := .passed, inputs := s.inputs.tail } := by
  rw [initialise, if_pos hport, if_neg hne, hcheck]

/-- Settles O1: the fields stand in `State.reset`, and the step is an initialisation whose image passes. -/
theorem resetIsTheInitialisedBlock : Obligations.ResetIsTheInitialisedBlock := by
  refine ⟨rfl, rfl, rfl, rfl, rfl, rfl, rfl, rfl, ?_⟩
  rw [step_of_initialise rfl, initialise_of_checked rfl (by decide) checkImage_defaultImage]
  rfl

/-- Settles O2: the image passed its check, and there is no stream or input. -/
theorem resetMeetsInvariant : Obligations.ResetMeetsInvariant where
  regRom := rfl
  eaRom := rfl
  readyIff := iff_of_true rfl rfl
  image _ := ⟨by decide, checkImage_defaultImage⟩
  unready hr := by cases hr
  latches := rfl
  streams _ hc := by cases hc
  inputs _ hx := by cases hx

end Sys2Proof.Proofs
end

section
/-! PROOFS. The host's change of a byte: refused while the stream runs, and otherwise a write of that byte alone
(20_memory R57, R63, 43_stream_driver R196). -/

namespace Sys2Proof.Proofs

open Machine Laws

theorem buffer_write_byte_same {buf : Buffer} (h : buf.wf = true) (i : Nat) (b : Byte) : (buf.write i b).byte i = b :=
  read_write_same (Bool.and_eq_true_iff.1 h).1

theorem buffer_write_byte_other (buf : Buffer) {i j : Nat} (hj : j ≠ i) (b : Byte) :
    (buf.write i b).byte j = buf.byte j :=
  read_write_other hj

@[simp] theorem buffer_write_len (buf : Buffer) (i : Nat) (b : Byte) : (buf.write i b).len = buf.len := rfl

theorem step_of_changeByte {s : State} {k i : Nat} {b : Byte} {rest : List HostInput}
    (h : s.inputs = .changeByte k i b :: rest) : step s = changeByte s k i b := by
  simp only [step, h]

section ChangeByte
variable {s : State} {k i : Nat} {b : Byte} {c : StreamCtx} (hc : s.streams[k]? = some c) (hi : i < c.buf.len)
include hc hi

theorem changeByte_of_running (hrun : c.phase = .running) (hheld : c.abandoned = false) (hb : c.buf.byte i ≠ b) :
    changeByte s k i b = .refused .bufferChangedDuringStream := by
  simp only [changeByte, hc]
  rw [if_neg (Nat.not_le.2 hi), if_pos ⟨hrun, hheld, hb⟩]

theorem changeByte_of_released (hfree : c.phase ≠ .running ∨ c.abandoned = true) :
    changeByte s k i b =
      .next { s with streams := s.streams.set k { c with buf := c.buf.write i b }, inputs := s.inputs.tail } := by
  have hallowed : ¬(c.phase = .running ∧ c.abandoned = false ∧ c.buf.byte i ≠ b) := by
    rintro ⟨hrun, hheld, -⟩
    rcases hfree with hended | hab
    · exact hended hrun
    · simp [hab] at hheld
  simp only [changeByte, hc]
  rw [if_neg (Nat.not_le.2 hi), if_neg hallowed, modify_eq_set hc]

end ChangeByte

/-- Settles O41: the buffer after the change is the buffer with that one byte written. -/
theorem bufferChangeOnlyOutsideAStream : Obligations.BufferChangeOnlyOutsideAStream := by
  intro s k i b c rest hin hc hwf hi
  rw [step_of_changeByte hin]
  refine ⟨changeByte_of_running hc hi, fun hfree => ⟨c.buf.write i b, ?_, buffer_write_byte_same hwf i b,
    fun j hj => buffer_write_byte_other c.buf hj b, buffer_write_len .., buffer_write_wf hwf hi b⟩⟩
  rw [changeByte_of_released hc hi hfree, hin, List.tail_cons]

end Sys2Proof.Proofs
end

section
/-! PROOFS. The round trip between bytes and instructions (30_encoding R70 to R79, R94, R97): each reader of the byte
decoder gives a field and a rest exactly when the field is well formed and its bytes, then the rest, are what it read. -/

namespace Sys2Proof.Proofs

open Machine Laws Decode Encode

/-! ### Bytes and 16-bit values -/

theorem takeByte_eq_ok {t : Nat} {bytes rest : List Byte} {b : Byte} :
    takeByte t bytes = .ok (b, rest) ↔ bytes = b :: rest := by
  cases bytes <;> simp [takeByte]

theorem littleEndian_eq_iff {lo hi : Byte} {v : Half} : littleEndian lo hi = v ↔ lo = lowByte v ∧ hi = highByte v := by
  constructor
  · rintro rfl
    exact ⟨(lowByte_littleEndian lo hi).symm, (highByte_littleEndian lo hi).symm⟩
  · rintro ⟨rfl, rfl⟩
    exact littleEndian_low_high v

theorem takeHalf_eq_ok {t : Nat} {bytes rest : List Byte} {v : Half} :
    takeHalf t bytes = .ok (v, rest) ↔ bytes = halfBytes v ++ rest := by
  match bytes with
  | [] => simp [takeHalf, halfBytes]
  | [_] => simp [takeHalf, halfBytes]
  | lo :: hi :: more => simp [takeHalf, halfBytes, littleEndian_eq_iff, and_assoc]

/-- A reader that puts a constructor around what another reader gave. -/
theorem mapField_eq_ok {α β : Type} (x : Except Reject (α × List Byte)) (f : α → β) {b : β} {rest : List Byte} :
    x.map (Prod.map f id) = .ok (b, rest) ↔ ∃ a, f a = b ∧ x = .ok (a, rest) := by
  rcases x with e | ⟨a, more⟩ <;> simp [Except.map]

theorem takeImm_eq_ite (t : Nat) (w s : Bool) (bytes : List Byte) :
    takeImm t w s bytes = if immIsByte w s then (takeByte t bytes).map (Prod.map .imm8 id)
      else (takeHalf t bytes).map (Prod.map .imm16 id) := by
  unfold takeImm
  rcases takeByte t bytes with _ | ⟨_, _⟩ <;> rcases takeHalf t bytes with _ | ⟨_, _⟩ <;> rfl

theorem takeImm_eq_ok {t : Nat} {w s : Bool} {bytes rest : List Byte} {imm : ImmField} :
    takeImm t w s bytes = .ok (imm, rest) ↔ imm.fits w s = true ∧ bytes = immBytes imm ++ rest := by
  rw [takeImm_eq_ite]
  split
  · next hbyte =>
    simp only [mapField_eq_ok, takeByte_eq_ok]
    cases imm <;> simp [ImmField.fits, immBytes, hbyte]
  · next hhalf =>
    simp only [mapField_eq_ok, takeHalf_eq_ok]
    cases imm <;> simp [ImmField.fits, immBytes, hhalf]

/-! ### The ModRM byte -/

theorem modrmByte_extract (m : Byte) : modrmByte (extract m 6 2) (extract m 3 3) (extract m 0 3) = m := by
  revert m; decide

theorem extract_modrmByte_mod (mod : BitVec 2) (reg rm : BitVec 3) : extract (modrmByte mod reg rm) 6 2 = mod := by
  revert mod reg rm; decide

theorem extract_modrmByte_reg (mod : BitVec 2) (reg rm : BitVec 3) : extract (modrmByte mod reg rm) 3 3 = reg := by
  revert mod reg rm; decide

theorem extract_modrmByte_rm (mod : BitVec 2) (reg rm : BitVec 3) : extract (modrmByte mod reg rm) 0 3 = rm := by
  revert mod reg rm; decide

theorem modrmByte_eq_iff {m : Byte} {mod : BitVec 2} {reg rm : BitVec 3} :
    m = modrmByte mod reg rm ↔ extract m 6 2 = mod ∧ extract m 3 3 = reg ∧ extract m 0 3 = rm := by
  constructor
  · rintro rfl
    exact ⟨extract_modrmByte_mod mod reg rm, extract_modrmByte_reg mod reg rm, extract_modrmByte_rm mod reg rm⟩
  · rintro ⟨rfl, rfl, rfl⟩
    exact (modrmByte_extract m).symm

/-- MOD of an RM field (R94). -/
def rmMod : RmField → BitVec 2
  | .register _  => 0b11#2
  | .direct _    => 0b00#2
  | .based _     => 0b00#2
  | .based8 _ _  => 0b01#2
  | .based16 _ _ => 0b10#2

/-- RM of an RM field (R94). -/
def rmCode : RmField → BitVec 3
  | .register rm  => rm
  | .direct _     => 0b110#3
  | .based rm     => rm
  | .based8 rm _  => rm
  | .based16 rm _ => rm

/-- The displacement bytes of an RM field, in buffer order (R94, R52). -/
def dispBytes : RmField → List Byte
  | .register _     => []
  | .direct addr    => halfBytes addr
  | .based _        => []
  | .based8 _ disp  => [disp]
  | .based16 _ disp => halfBytes disp

theorem rmBytes_eq (reg : BitVec 3) (f : RmField) :
    rmBytes reg f = modrmByte (rmMod f) reg (rmCode f) :: dispBytes f := by
  cases f <;> rfl

theorem takeRm_eq_ite (m : Byte) (bytes : List Byte) :
    takeRm m bytes =
      if extract m 6 2 = 0b00#2 then
        if extract m 0 3 = 0b110#3 then (takeHalf 2 bytes).map (Prod.map .direct id) else .ok (.based (extract m 0 3), bytes)
      else if extract m 6 2 = 0b01#2 then (takeByte 2 bytes).map (Prod.map (.based8 (extract m 0 3)) id)
      else if extract m 6 2 = 0b10#2 then (takeHalf 2 bytes).map (Prod.map (.based16 (extract m 0 3)) id)
      else .ok (.register (extract m 0 3), bytes) := by
  unfold takeRm
  generalize extract m 0 3 = rm
  generalize extract m 6 2 = mod
  split
  · rcases takeHalf 2 bytes with _ | ⟨_, _⟩ <;> rfl
  · rcases takeByte 2 bytes with _ | ⟨_, _⟩ <;> rfl
  · rcases takeHalf 2 bytes with _ | ⟨_, _⟩ <;> rfl
  · next h00 h01 h10 => rw [if_neg h00, if_neg h01, if_neg h10]

theorem mod_eq_register {mod : BitVec 2} (h00 : mod ≠ 0b00#2) (h01 : mod ≠ 0b01#2) (h10 : mod ≠ 0b10#2) : mod = 0b11#2 := by
  revert mod; decide

theorem takeRm_eq_ok {m : Byte} {bytes rest : List Byte} {f : RmField} :
    takeRm m bytes = .ok (f, rest) ↔
      f.wellFormed = true ∧ extract m 6 2 = rmMod f ∧ extract m 0 3 = rmCode f ∧ bytes = dispBytes f ++ rest := by
  rw [takeRm_eq_ite]
  split_ifs with h00 hrm h01 h10
  · simp only [mapField_eq_ok, takeHalf_eq_ok, h00, hrm]
    cases f <;> simp [RmField.wellFormed, rmMod, rmCode, dispBytes]
    case based => exact fun hne heq => absurd heq.symm hne
  · rw [h00]
    cases f <;> simp [RmField.wellFormed, rmMod, rmCode, dispBytes, hrm]
    case based => rintro rfl -; exact hrm
  · simp only [mapField_eq_ok, takeByte_eq_ok, h01]
    cases f <;> simp [RmField.wellFormed, rmMod, rmCode, dispBytes]
  · simp only [mapField_eq_ok, takeHalf_eq_ok, h10]
    cases f <;> simp [RmField.wellFormed, rmMod, rmCode, dispBytes]
  · rw [mod_eq_register h00 h01 h10]
    cases f <;> simp [RmField.wellFormed, rmMod, rmCode, dispBytes]

/-! ### The layouts -/

theorem takeRr_eq_ok {bytes rest : List Byte} {reg : BitVec 3} {f : RmField} :
    takeRr bytes = .ok ((reg, f), rest) ↔ f.wellFormed = true ∧ bytes = rmBytes reg f ++ rest := by
  rcases bytes with _ | ⟨m, bytes⟩
  · simp [takeRr, takeByte, rmBytes_eq]
  · have hread : takeRr (m :: bytes) = (takeRm m bytes).map (Prod.map (extract m 3 3, ·) id) := by
      simp only [takeRr, takeByte]
      rcases takeRm m bytes with _ | ⟨_, _⟩ <;> rfl
    simp only [hread, mapField_eq_ok, takeRm_eq_ok, rmBytes_eq, List.cons_append, List.cons.injEq, modrmByte_eq_iff,
      Prod.mk.injEq]
    constructor
    · rintro ⟨_, ⟨hreg, rfl⟩, hwf, hmod, hrm, hrest⟩
      exact ⟨hwf, ⟨hmod, hreg, hrm⟩, hrest⟩
    · rintro ⟨hwf, ⟨hmod, hreg, hrm⟩, hrest⟩
      exact ⟨f, ⟨hreg, rfl⟩, hwf, hmod, hrm, hrest⟩

theorem takeIm_eq_ok {w s : Bool} {bytes rest : List Byte} {f : RmField} {imm : ImmField} :
    takeIm w s bytes = .ok ((f, imm), rest) ↔
      (f.wellFormed = true ∧ imm.fits w s = true) ∧ bytes = rmBytes 0#3 f ++ immBytes imm ++ rest := by
  rcases bytes with _ | ⟨m, bytes⟩
  · simp [takeIm, takeByte, rmBytes_eq]
  simp only [rmBytes_eq, List.cons_append, List.cons.injEq, modrmByte_eq_iff, List.append_assoc]
  constructor
  · intro h
    simp only [takeIm, takeByte] at h
    split_ifs at h with hreg
    split at h
    · cases h
    · next f' more hf =>
      split at h
      · cases h
      · next imm' rest' himm =>
        cases h
        obtain ⟨hwf, hmod, hrm, rfl⟩ := takeRm_eq_ok.1 hf
        obtain ⟨hfits, rfl⟩ := takeImm_eq_ok.1 himm
        exact ⟨⟨hwf, hfits⟩, ⟨hmod, not_not.1 hreg, hrm⟩, rfl⟩
  · rintro ⟨⟨hwf, hfits⟩, ⟨hmod, hreg, hrm⟩, hbytes⟩
    have hf : takeRm m bytes = .ok (f, immBytes imm ++ rest) := takeRm_eq_ok.2 ⟨hwf, hmod, hrm, hbytes⟩
    have himm : takeImm (2 + f.dispLen) w s (immBytes imm ++ rest) = .ok (imm, rest) := takeImm_eq_ok.2 ⟨hfits, rfl⟩
    simp [takeIm, takeByte, hreg, hf, himm]

/-! ### The first byte -/

/-- The row of the opcode table that an instruction belongs to. -/
def rowOf : Instr → Row
  | .movRmReg _ _ _ _ => .movRmReg
  | .movImmReg _ _ _  => .movImmReg
  | .movImmRm _ _ _   => .movImmRm
  | .addRmReg _ _ _ _ => .addRmReg
  | .addImmRm _ _ _ _ => .addImmRm

/-- The first byte of an instruction's encoding. -/
def firstByte : Instr → Byte
  | .movRmReg d w _ _  => 0b100010#6 ++ (BitVec.ofBool d ++ BitVec.ofBool w)
  | .movImmReg w reg _ => 0b1011#4 ++ (BitVec.ofBool w ++ reg)
  | .movImmRm w _ _    => 0b1100011#7 ++ BitVec.ofBool w
  | .addRmReg d w _ _  => 0b000000#6 ++ (BitVec.ofBool d ++ BitVec.ofBool w)
  | .addImmRm s w _ _  => 0b100000#6 ++ (BitVec.ofBool s ++ BitVec.ofBool w)

/-- The bytes after the first byte. -/
def operandBytes : Instr → List Byte
  | .movRmReg _ _ reg rm  => rmBytes reg rm
  | .movImmReg _ _ imm    => immBytes imm
  | .movImmRm _ rm imm    => rmBytes 0#3 rm ++ immBytes imm
  | .addRmReg _ _ reg rm  => rmBytes reg rm
  | .addImmRm _ _ rm imm  => rmBytes 0#3 rm ++ immBytes imm

/-- The fields that the first byte holds are those of the instruction (R77 to R79). -/
def HoldsFields (b : Byte) : Instr → Prop
  | .movRmReg d w _ _  => bit b 1 = d ∧ bit b 0 = w
  | .movImmReg w reg _ => bit b 3 = w ∧ extract b 0 3 = reg
  | .movImmRm w _ _    => bit b 0 = w
  | .addRmReg d w _ _  => bit b 1 = d ∧ bit b 0 = w
  | .addImmRm s w _ _  => bit b 1 = s ∧ bit b 0 = w

theorem encode_eq (i : Instr) : encode i = firstByte i :: operandBytes i := by
  cases i <;> rfl

theorem rowOfByte_firstByte (i : Instr) : rowOfByte (firstByte i) = some (rowOf i) := by
  cases i <;> simp only [firstByte, rowOf]
  case movRmReg d w _ _ => revert d w; decide
  case movImmReg w reg _ => revert w reg; decide
  case movImmRm w _ _ => revert w; decide
  case addRmReg d w _ _ => revert d w; decide
  case addImmRm s w _ _ => revert s w; decide

theorem holdsFields_firstByte (i : Instr) : HoldsFields (firstByte i) i := by
  cases i <;> simp only [firstByte, HoldsFields]
  case movRmReg d w _ _ => revert d w; decide
  case movImmReg w reg _ => revert w reg; decide
  case movImmRm w _ _ => revert w; decide
  case addRmReg d w _ _ => revert d w; decide
  case addImmRm s w _ _ => revert s w; decide

/-- The row and the fields give the first byte back: a first byte holds nothing else. -/
theorem firstByte_of_fields {b : Byte} {i : Instr} (hrow : rowOfByte b = some (rowOf i)) (hfields : HoldsFields b i) :
    b = firstByte i := by
  cases i <;> simp only [rowOf, HoldsFields, firstByte] at hrow hfields ⊢
  case movRmReg => obtain ⟨rfl, rfl⟩ := hfields; revert b; decide
  case movImmReg => obtain ⟨rfl, rfl⟩ := hfields; revert b; decide
  case movImmRm => subst hfields; revert b; decide
  case addRmReg => obtain ⟨rfl, rfl⟩ := hfields; revert b; decide
  case addImmRm => obtain ⟨rfl, rfl⟩ := hfields; revert b; decide

theorem eq_firstByte_iff {b : Byte} {i : Instr} :
    b = firstByte i ↔ rowOfByte b = some (rowOf i) ∧ HoldsFields b i := by
  constructor
  · rintro rfl
    exact ⟨rowOfByte_firstByte i, holdsFields_firstByte i⟩
  · rintro ⟨hrow, hfields⟩
    exact firstByte_of_fields hrow hfields

/-! ### The five formats -/

/-- Each row reads the fields of its layout and takes the others from the first byte (R77 to R79). -/
theorem decodeRow_eq_map (row : Row) (b : Byte) (bytes : List Byte) :
    decodeRow row b bytes =
      match row with
      | .movRmReg  => (takeRr bytes).map (Prod.map (fun x => .movRmReg (bit b 1) (bit b 0) x.1 x.2) id)
      | .movImmReg => (takeImm 1 (bit b 3) false bytes).map (Prod.map (.movImmReg (bit b 3) (extract b 0 3)) id)
      | .movImmRm  => (takeIm (bit b 0) false bytes).map (Prod.map (fun x => .movImmRm (bit b 0) x.1 x.2) id)
      | .addRmReg  => (takeRr bytes).map (Prod.map (fun x => .addRmReg (bit b 1) (bit b 0) x.1 x.2) id)
      | .addImmRm  =>
        (takeIm (bit b 0) (bit b 1) bytes).map (Prod.map (fun x => .addImmRm (bit b 1) (bit b 0) x.1 x.2) id) := by
  cases row <;> simp only [decodeRow]
  case movRmReg | addRmReg => rcases takeRr bytes with _ | ⟨⟨_, _⟩, _⟩ <;> rfl
  case movImmReg => rcases takeImm 1 (bit b 3) false bytes with _ | ⟨_, _⟩ <;> rfl
  case movImmRm => rcases takeIm (bit b 0) false bytes with _ | ⟨⟨_, _⟩, _⟩ <;> rfl
  case addImmRm => rcases takeIm (bit b 0) (bit b 1) bytes with _ | ⟨⟨_, _⟩, _⟩ <;> rfl

/-- An instruction of another row is no result of the row: both sides are false. -/
theorem decodeRow_eq_ok {row : Row} {b : Byte} {bytes rest : List Byte} {i : Instr} :
    decodeRow row b bytes = .ok (i, rest) ↔
      (row = rowOf i ∧ HoldsFields b i) ∧ i.wellFormed = true ∧ bytes = operandBytes i ++ rest := by
  rw [decodeRow_eq_map]
  cases row <;> simp only [mapField_eq_ok]
  case movRmReg | addRmReg =>
    cases i <;> simp [takeRr_eq_ok, rowOf, HoldsFields, Instr.wellFormed, operandBytes, and_assoc]
  case movImmReg =>
    cases i <;> simp +contextual [takeImm_eq_ok, rowOf, HoldsFields, Instr.wellFormed, operandBytes, and_assoc]
  case movImmRm | addImmRm =>
    cases i <;> simp +contextual [takeIm_eq_ok, rowOf, HoldsFields, Instr.wellFormed, operandBytes, and_assoc]

/-- The whole round trip: the decoder and the encoder are inverse to each other on well-formed instructions. -/
theorem decode_eq_ok {bytes rest : List Byte} {i : Instr} :
    Decode.decode bytes = .ok (i, rest) ↔ i.wellFormed = true ∧ bytes = encode i ++ rest := by
  rw [encode_eq, List.cons_append]
  rcases bytes with _ | ⟨b, bytes⟩
  · simp [Decode.decode, takeByte]
  rw [List.cons.injEq, eq_firstByte_iff]
  simp only [Decode.decode, takeByte]
  rcases rowOfByte b with _ | row
  · simp
  · simp only [decodeRow_eq_ok, Option.some.injEq]
    tauto

/-- Settles O7: the bytes are the encoding of a well-formed instruction and a rest. -/
theorem decodeAfterEncode : Obligations.DecodeAfterEncode := fun _ _ hwf => decode_eq_ok.2 ⟨hwf, rfl⟩

/-- Settles O8: a success of the decoder says what its bytes are. -/
theorem encodeAfterDecode : Obligations.EncodeAfterDecode := by
  intro bytes rest i h
  obtain ⟨hwf, hbytes⟩ := decode_eq_ok.1 h
  exact ⟨hwf, hbytes.symm⟩

end Sys2Proof.Proofs
end

section
/-! PROOFS. Matching (30_encoding R81, R84): which entry a first byte selects, and that the default image's entries match
disjoint sets of first bytes. -/

namespace Sys2Proof.Proofs

open Machine Laws

@[simp] theorem entryMatches_iff {F : FormatEntry} {b : Byte} : entryMatches F b = true ↔ b &&& F.mask = F.opcode :=
  beq_iff_eq

theorem matchEntry_cons_of_matches {F : FormatEntry} {b : Byte} (h : b &&& F.mask = F.opcode) (k : Nat)
    (fmt : List FormatEntry) : matchEntry k (F :: fmt) b = some (k, F) := by
  rw [matchEntry, if_pos (entryMatches_iff.2 h)]

theorem matchEntry_cons_of_not_matches {F : FormatEntry} {b : Byte} (h : b &&& F.mask ≠ F.opcode) (k : Nat)
    (fmt : List FormatEntry) : matchEntry k (F :: fmt) b = matchEntry (k + 1) fmt b := by
  rw [matchEntry, if_neg (entryMatches_iff.not.2 h)]

theorem matchEntry_index_le {fmt : List FormatEntry} {b : Byte} {k n : Nat} {F : FormatEntry}
    (h : matchEntry k fmt b = some (n, F)) : k ≤ n := by
  induction fmt generalizing k with
  | nil => cases h
  | cons G fmt ih =>
    by_cases hG : b &&& G.mask = G.opcode
    · rw [matchEntry_cons_of_matches hG] at h
      cases h; exact le_rfl
    · rw [matchEntry_cons_of_not_matches hG] at h
      exact Nat.le_of_succ_le (ih h)

theorem forall_before_succ_cons {α : Type} {P : α → Prop} {a : α} {l : List α} {j : Nat} :
    (∀ i x, i < j + 1 → (a :: l)[i]? = some x → P x) ↔ P a ∧ ∀ i x, i < j → l[i]? = some x → P x := by
  constructor
  · intro h
    exact ⟨h 0 a (Nat.succ_pos j) rfl, fun i x hi hx => h (i + 1) x (Nat.succ_lt_succ hi) hx⟩
  · rintro ⟨ha, h⟩ (_ | i) x hi hx
    · cases hx; exact ha
    · exact h i x (Nat.lt_of_succ_lt_succ hi) hx

/-- R81, for a list whose first entry has the index `k`. -/
theorem matchEntry_eq_some {fmt : List FormatEntry} {b : Byte} {k j : Nat} {F : FormatEntry} :
    matchEntry k fmt b = some (k + j, F) ↔
      fmt[j]? = some F ∧ b &&& F.mask = F.opcode ∧ ∀ i G, i < j → fmt[i]? = some G → b &&& G.mask ≠ G.opcode := by
  induction fmt generalizing k j with
  | nil => simp [matchEntry]
  | cons H fmt ih =>
    by_cases hH : b &&& H.mask = H.opcode <;> rcases j with _ | j
    · rw [matchEntry_cons_of_matches hH]
      constructor
      · rintro ⟨⟩; simp [hH]
      · rintro ⟨⟨⟩, -⟩; rfl
    · rw [matchEntry_cons_of_matches hH, forall_before_succ_cons]
      simp [hH]
    · rw [matchEntry_cons_of_not_matches hH]
      constructor
      · intro h; exact absurd (matchEntry_index_le h) (by omega)
      · rintro ⟨⟨⟩, h, -⟩; exact absurd h hH
    · rw [matchEntry_cons_of_not_matches hH, show k + (j + 1) = k + 1 + j by omega, ih, forall_before_succ_cons]
      simp [hH]

/-- The entry of a match, apart from its index. -/
theorem matchEntry_map_snd (k : Nat) (fmt : List FormatEntry) (b : Byte) :
    (matchEntry k fmt b).map Prod.snd = fmt.find? (entryMatches · b) := by
  induction fmt generalizing k with
  | nil => rfl
  | cons F fmt ih =>
    rw [matchEntry, List.find?_cons]
    cases entryMatches F b
    · exact ih (k + 1)
    · rfl

/-- The decode looks at a ROM only through the entry that the first byte selects. -/
theorem engine_decode_eq_elim (fmt : List FormatEntry) (regs : RegRom) (ea : EaRom) (buf : Buffer) (off : Nat) :
    Engine.decode fmt regs ea buf off =
      if off < buf.len then
        (fmt.find? (entryMatches · (buf.byte off))).elim (.err (unknownOpcode off)) (entryAt regs ea buf · off)
      else .err (truncated buf.len off off 1) := by
  rw [engine_decode_eq, ← matchEntry_map_snd 0]
  rcases matchEntry 0 fmt (buf.byte off) with _ | ⟨k, F⟩ <;> rfl

/-- Settles O12: by induction over the ROM, and a decode with no match is the error. -/
theorem matchTakesTheLowestIndex : Obligations.MatchTakesTheLowestIndex := by
  refine ⟨fun fmt b k F => ?_, fun fmt regs ea buf off hlt hnone => ?_⟩
  · simpa using matchEntry_eq_some (k := 0) (j := k)
  · have hfind : fmt.find? (entryMatches · (buf.byte off)) = none := by simpa using hnone
    rw [engine_decode_eq_elim, if_pos hlt, hfind]
    rfl

/-! ### The default image -/

/-- Two entries that match one byte agree on the bits that both masks keep. -/
theorem opcodes_agree_of_matches {F G : FormatEntry} {b : Byte} (hF : b &&& F.mask = F.opcode)
    (hG : b &&& G.mask = G.opcode) : F.opcode &&& G.mask = G.opcode &&& F.mask := by
  rw [← hF, ← hG, BitVec.and_assoc, BitVec.and_assoc, BitVec.and_comm F.mask]

theorem defaultImage_disjoint {F G : FormatEntry} (hF : F ∈ defaultImage) (hG : G ∈ defaultImage) {b : Byte}
    (hFb : b &&& F.mask = F.opcode) (hGb : b &&& G.mask = G.opcode) : F = G := by
  have key : ∀ F ∈ defaultImage, ∀ G ∈ defaultImage, F.opcode &&& G.mask = G.opcode &&& F.mask → F = G := by decide
  exact key F hF G hG (opcodes_agree_of_matches hFb hGb)

/-- Where at most one element passes the test, the order of the list does not matter. -/
theorem find?_eq_of_perm {α : Type} {p : α → Bool} {l l' : List α} (hperm : l.Perm l')
    (hunique : ∀ a ∈ l', ∀ b ∈ l', p a = true → p b = true → a = b) : l.find? p = l'.find? p := by
  rcases h' : l'.find? p with _ | a
  · rw [List.find?_eq_none] at h' ⊢
    exact fun x hx => h' x (hperm.mem_iff.1 hx)
  · have ha := List.mem_of_find?_eq_some h'
    have hpa := List.find?_some h'
    rcases h : l.find? p with _ | b
    · exact absurd hpa (List.find?_eq_none.1 h a (hperm.mem_iff.2 ha))
    · rw [hunique b (hperm.mem_iff.1 (List.mem_of_find?_eq_some h)) a ha (List.find?_some h) hpa]

/-- Settles O13: the entries match disjoint sets of bytes, so any order finds the same entry. -/
theorem defaultImageOrderDoesNotMatter : Obligations.DefaultImageOrderDoesNotMatter := by
  refine ⟨fun b F hF G hG => defaultImage_disjoint hF hG, fun image regs ea buf off hperm => ?_⟩
  rw [engine_decode_eq_elim, engine_decode_eq_elim, find?_eq_of_perm hperm]
  intro F hF G hG hFb hGb
  exact defaultImage_disjoint hF hG (entryMatches_iff.1 hFb) (entryMatches_iff.1 hGb)

theorem find?_defaultImage (b : Byte) :
    defaultImage.find? (entryMatches · b) = (Decode.rowOfByte b).map rowEntry :=
  List.find?_map ..

/-- The default image and the per-format decoder agree where the first byte selects a row. -/
theorem engine_decode_of_row {buf : Buffer} {off : Nat} {row : Row} (hlt : off < buf.len)
    (hrow : Decode.rowOfByte (buf.byte off) = some row) (regs : RegRom) (ea : EaRom) :
    Engine.decode defaultImage regs ea buf off =
      responseOf regs ea buf.len off (Decode.decodeRow row (buf.byte off) (buf.window (off + 1) 5)) := by
  rw [engine_decode_eq_elim, if_pos hlt, find?_defaultImage, hrow]
  exact (decodeEntry_eq ..).symm.trans (decodeEntry_row regs ea buf off 0 row)

/-! ### First byte 0x82 -/

theorem window_congr {buf buf' : Buffer} (hlen : buf'.len = buf.len) {off : Nat}
    (hbytes : ∀ i, off ≤ i → buf'.byte i = buf.byte i) (n : Nat) : buf'.window off n = buf.window off n := by
  induction n generalizing off with
  | zero => rfl
  | succ n ih =>
    rw [Buffer.window, Buffer.window, hlen, hbytes off le_rfl, ih fun i hi => hbytes i (Nat.le_of_succ_le hi)]

/-- S changes nothing of an 8-bit operand: the immediate is one byte either way, and the value does not hold S. -/
theorem responseOf_addImmRm_sign (regs : RegRom) (ea : EaRom) (len off : Nat) (rest : List Byte) :
    responseOf regs ea len off (Decode.decodeRow .addImmRm 0x82#8 rest) =
      responseOf regs ea len off (Decode.decodeRow .addImmRm 0x80#8 rest) := by
  have h82 : bit 0x82#8 0 = false ∧ bit 0x82#8 1 = true := by decide
  have h80 : bit 0x80#8 0 = false ∧ bit 0x80#8 1 = false := by decide
  have htake : Decode.takeIm false true rest = Decode.takeIm false false rest := rfl
  simp only [Decode.decodeRow, h82, h80, htake]
  rcases Decode.takeIm false false rest with r | ⟨⟨rm, imm⟩, rest⟩ <;> rfl

theorem defaultImage_sign {F : FormatEntry} (hF : F ∈ defaultImage) (p : Nat) :
    F.s = some p ↔ F = rowEntry .addImmRm ∧ p = 1 := by
  obtain ⟨row, -, rfl⟩ := List.mem_map.1 hF
  cases row <;> simp [rowEntry, eq_comm]

/-- Settles O55: both first bytes select ADD_IMM_RM, whose response for W = 0 does not depend on S. -/
theorem signBitChangesNoByteOperand : Obligations.SignBitChangesNoByteOperand := by
  refine ⟨fun F hF p => defaultImage_sign hF p, fun regs ea buf buf' off hlen h80 h82 hbytes => ?_⟩
  by_cases hlt : off < buf.len
  · have hrow : Decode.rowOfByte (buf.byte off) = some .addImmRm := by rw [h80]; decide
    have hrow' : Decode.rowOfByte (buf'.byte off) = some .addImmRm := by rw [h82]; decide
    rw [engine_decode_of_row hlt hrow, engine_decode_of_row (hlen ▸ hlt) hrow', h80, h82, hlen,
      window_congr hlen fun i hi => hbytes i hi, responseOf_addImmRm_sign]
  · rw [engine_decode_eq_elim, engine_decode_eq_elim, hlen, if_neg hlt, if_neg hlt]

end Sys2Proof.Proofs
end

section
/-! PROOFS. The tables of 30_encoding (R82, R85, R90, R92), the extractor (R73), the bits of an immediate (R100), and
words written out. -/

namespace Sys2Proof.Proofs

open Machine Safety Laws

theorem extract_toNat (b : Byte) (shift width : Nat) : (extract b shift width).toNat = (b.toNat >>> shift) % 2 ^ width :=
  BitVec.toNat_ofNat ..

/-- Settles O11: a mask of `width` ones is the remainder modulo `2 ^ width`. -/
theorem extractorIsShiftAndMask : Obligations.ExtractorIsShiftAndMask := by
  intro b shift width
  refine ⟨?_, BitVec.isLt _⟩
  rw [extract_toNat, Nat.and_two_pow_sub_one_eq_mod]

/-- Settles O3: the image is its five rows in ROM order. -/
theorem defaultImageIsTheTable : Obligations.DefaultImageIsTheTable := rfl

/-- Settles O4: one lookup per width and code. -/
theorem registerNamesByCode : Obligations.RegisterNamesByCode := ⟨rfl, rfl⟩

/-- Settles O5: one lookup per code. -/
theorem baseRegistersByCode : Obligations.BaseRegistersByCode := rfl

/-- Settles O6: one run of the decoder per word. -/
theorem writtenWordsDecode : Obligations.WrittenWordsDecode := ⟨rfl, rfl, rfl, rfl, rfl⟩

/-! ### The opcode map -/

theorem decode_of_no_row {b : Byte} (h : Decode.rowOfByte b = none) (rest : List Byte) :
    Decode.decode (b :: rest) = .error .unknownOpcode := by
  simp only [Decode.decode, Decode.takeByte, h]

/-- The bytes that have a row are 4 + 4 + 4 + 16 + 2. -/
theorem bytes_with_row : ((List.range 256).filter fun n => (Decode.rowOfByte (BitVec.ofNat 8 n)).isSome).length = 30 := by
  decide

theorem bytes_without_row :
    ((List.range 256).filter fun n => (Decode.rowOfByte (BitVec.ofNat 8 n)).isNone).length = 226 := by
  have hall := List.length_eq_length_filter_add (l := List.range 256) fun n =>
    (Decode.rowOfByte (BitVec.ofNat 8 n)).isSome
  simp only [List.length_range, bytes_with_row, Option.not_isSome] at hall
  omega

theorem latchFlag_some (p : Nat) (b : Byte) : latchFlag (some p) b = b.getLsbD p := bit_eq_getLsbD b p

/-- W of the short form splits its range of first bytes in two. -/
theorem latchFlag_movImmReg_w {b : Byte} (h : 0xB0 ≤ b.toNat ∧ b.toNat ≤ 0xBF) :
    latchFlag (rowEntry .movImmReg).w b = decide (0xB8 ≤ b.toNat) := by
  revert b; decide

theorem latchReg_movImmReg (L : Latches) :
    (Engine.latchReg (rowEntry .movImmReg) L).reg.map BitVec.toNat = some (L.byte0.toNat % 8) :=
  congrArg some (extract_toNat L.byte0 0 3)

/-- Settles O10: the rows by their ranges of first bytes, then the fields each row takes from it. -/
theorem opcodeMapByFirstByte : Obligations.OpcodeMapByFirstByte := by
  refine ⟨by decide, bytes_without_row, fun b rest h => decode_of_no_row h rest, fun b h => latchFlag_movImmReg_w h,
    latchReg_movImmReg, fun b => ?_⟩
  exact ⟨latchFlag_some 1 b, latchFlag_some 0 b, latchFlag_some 1 b, latchFlag_some 0 b, latchFlag_some 1 b,
    latchFlag_some 0 b, latchFlag_some 0 b⟩

/-! ### The bits of an immediate -/

/-- A two's-complement value gives its bits back modulo `2 ^ n` (R100). -/
theorem toInt_emod_two_pow {n : Nat} (v : BitVec n) : v.toInt % 2 ^ n = (v.toNat : Int) := by
  have h : v.toInt % ((2 ^ n : Nat) : Int) = v.toNat := by
    rw [BitVec.toInt_eq_toNat_bmod, Int.bmod_emod]
    exact_mod_cast Nat.mod_eq_of_lt v.isLt
  exact_mod_cast h

theorem sext16_toNat (b : Byte) :
    ((sext16 b).toNat : Int) = if b.getLsbD 7 then 0xFF00 + (b.toNat : Int) else (b.toNat : Int) := by
  revert b; decide

/-- Settles O27: the immediate is the two's-complement value of the byte, the byte sign-extended, or the two bytes. -/
theorem immediateBitsAreRecoverable : Obligations.ImmediateBitsAreRecoverable := by
  refine ⟨fun b => ⟨b.toInt, immOperand_eq false (.imm8 b), toInt_emod_two_pow b⟩,
    fun b => ⟨b.toInt, immOperand_eq true (.imm8 b), ?_⟩,
    fun v => ⟨v.toInt, immOperand_eq true (.imm16 v), toInt_emod_two_pow v⟩⟩
  rw [← sext16_toInt, toInt_emod_two_pow, sext16_toNat]

end Sys2Proof.Proofs
end

section
/-! PROOFS. How many bytes a success consumes (30_encoding R83, 40_decode_engine R131, R133): the opcode, the ModRM byte,
and what the two roles read. -/

namespace Sys2Proof.Proofs

open Machine Laws

/-- What the check of R263 says of an entry's roles (WF2, WF3, WF4, WF8). -/
theorem roles_of_checked {mnemonics : List Mnemonic} {F : FormatEntry} (h : checkEntry mnemonics F = none) :
    F.roles.1 ≠ F.roles.2 ∧ (hasRole F .rm = true → F.modrm = true) ∧ F.imm = hasRole F .imm := by
  unfold checkEntry at h
  split_ifs at h with hroles hfields
  simp only [Bool.and_eq_true, checkWF2, checkWF3, checkWF4] at hroles
  simp only [Bool.and_eq_true, checkWF8, bne_iff_ne] at hfields
  obtain ⟨⟨⟨-, hrm⟩, himm⟩, himm', -⟩ := hroles
  obtain ⟨-, ⟨⟨⟨hne, -⟩, -⟩, -⟩, -⟩ := hfields
  refine ⟨hne, ?_, ?_⟩
  · intro hr; simpa [hr] using hrm
  · cases hi : hasRole F .imm <;> simp_all

/-- The bytes a role reads: the displacement, the immediate, or none (R127). -/
def roleLength (w s : Bool) (m : Byte) : Role → Nat
  | .reg => 0
  | .rm  => Engine.dispLength m
  | .imm => if immIsByte w s then 1 else 2

/-- Two different roles read the displacement if one of them is RM, and the immediate if one of them is IMM. -/
theorem roleLength_add {F : FormatEntry} (h : F.roles.1 ≠ F.roles.2) (w s : Bool) (m : Byte) :
    roleLength w s m F.roles.1 + roleLength w s m F.roles.2 =
      (if hasRole F .rm then Engine.dispLength m else 0) +
        if hasRole F .imm then (if immIsByte w s then 1 else 2) else 0 := by
  unfold hasRole
  revert h
  rcases F.roles with ⟨r₁, r₂⟩
  cases r₁ <;> cases r₂ <;> simp [roleLength, Nat.add_comm]

theorem readRm_length {buf : Buffer} {start cur cur' : Nat} {m : Byte} {f : RmField}
    (h : Engine.readRm buf start cur (extract m 6 2) (extract m 0 3) = .ok (f, cur')) :
    cur' = cur + Engine.dispLength m := by
  unfold Engine.readRm at h
  unfold Engine.dispLength
  split_ifs at h with h11 hdirect h00 h01
  · cases h; simp [h11]
  · split at h
    · cases h
    · next hread => cases h; simp [hdirect, (readHalf_bound hread).1]
  · cases h
    rw [if_neg h11, if_pos h00, if_neg fun hrm => hdirect ⟨h00, hrm⟩]
    rfl
  · split at h
    · cases h
    · next hread => cases h; simp [h01, (readByte_bound hread).1]
  · split at h
    · cases h
    · next hread => cases h; simp [h11, h00, h01, (readHalf_bound hread).1]

theorem readImm_length {buf : Buffer} {start cur cur' : Nat} {w s : Bool} {f : ImmField}
    (h : Engine.readImm buf start cur w s = .ok (f, cur')) : cur' = cur + if immIsByte w s then 1 else 2 := by
  unfold Engine.readImm at h
  split_ifs at h ⊢
  · split at h
    · cases h
    · next hread => cases h; exact (readByte_bound hread).1
  · split at h
    · cases h
    · next hread => cases h; exact (readHalf_bound hread).1

theorem resolveAt_length {regs : RegRom} {ea : EaRom} {buf : Buffer} {off cur cur' : Nat} {w s : Bool} {reg : BitVec 3}
    {m : Byte} {r : Role} {a : Operand}
    (h : resolveAt regs ea buf off w s reg (extract m 6 2) (extract m 0 3) cur r = .ok (a, cur')) :
    cur' = cur + roleLength w s m r := by
  cases r with
  | reg => cases h; rfl
  | rm =>
    simp only [resolveAt] at h
    split at h
    · cases h
    · next hread => cases h; exact readRm_length hread
  | imm =>
    simp only [resolveAt] at h
    split at h
    · cases h
    · next hread => cases h; exact readImm_length hread

theorem rolesAt_length {regs : RegRom} {ea : EaRom} {buf : Buffer} {F : FormatEntry} {off cur n : Nat} {reg : BitVec 3}
    {m : Byte} {v : Decoded} (h : rolesAt regs ea buf F off cur reg m = .ok v n) :
    n = cur + roleLength (latchFlag F.w (buf.byte off)) (latchFlag F.s (buf.byte off)) m F.roles.1 +
      roleLength (latchFlag F.w (buf.byte off)) (latchFlag F.s (buf.byte off)) m F.roles.2 - off := by
  unfold rolesAt at h
  split at h
  · cases h
  · next hfirst =>
    split at h
    · cases h
    · next hsecond =>
      cases h
      rw [resolveAt_length hsecond, resolveAt_length hfirst]

/-- The length of a success of a checked entry, whatever its roles. -/
theorem entryAt_length {mnemonics : List Mnemonic} {F : FormatEntry} (hcheck : checkEntry mnemonics F = none)
    {regs : RegRom} {ea : EaRom} {buf : Buffer} {off n : Nat} {v : Decoded} (h : entryAt regs ea buf F off = .ok v n) :
    n = (if F.modrm then 2 else 1) + (if hasRole F .rm then Engine.dispLength (buf.byte (off + 1)) else 0) +
      Engine.immLength F (buf.byte off) := by
  obtain ⟨hne, hrm, himm⟩ := roles_of_checked hcheck
  unfold entryAt at h
  rw [Engine.immLength, himm]
  split_ifs at h with hmodrm hlt hext
  · have hlen := rolesAt_length h
    rw [Nat.add_assoc, roleLength_add hne] at hlen
    rw [if_pos hmodrm]
    omega
  · have hlen := rolesAt_length h
    have hnoRm : ¬hasRole F .rm = true := fun hr => hmodrm (hrm hr)
    rw [Nat.add_assoc, roleLength_add hne, if_neg hnoRm] at hlen
    rw [if_neg hmodrm, if_neg hnoRm]
    omega

/-- Settles O48: the general bounds, and the length of a checked entry with the role RM and without it. -/
theorem consumedIsTheFormatLength : Obligations.ConsumedIsTheFormatLength := by
  refine ⟨fun fmt regs ea buf off v n h => decode_ok_bound h, fun fmt regs ea buf off v n k F mnemonics h hmatch hcheck => ?_⟩
  have hlt : off < buf.len := by
    obtain ⟨h1, -, hlen⟩ := decode_ok_bound h
    omega
  rw [engine_decode_eq, if_pos hlt, hmatch] at h
  have hlen := entryAt_length hcheck h
  obtain ⟨-, hrm, -⟩ := roles_of_checked hcheck
  refine ⟨fun hrole => ?_, fun hmodrm hnoRm => ?_⟩
  · rw [hlen, Engine.formatLength]
    by_cases hmodrm : F.modrm = true
    · simp only [hmodrm, hrole hmodrm, if_true]
      omega
    · have hnoRm : ¬hasRole F .rm = true := fun hr => hmodrm (hrm hr)
      rw [if_neg hmodrm, if_neg hnoRm, if_neg hmodrm]
  · simpa [hmodrm, hnoRm] using hlen

end Sys2Proof.Proofs
end

section
/-! PROOFS. The listing of R130 and the layout of R70: what both find before the operands, and when the operands in role
order are read where the layout has them (logs 16, 18). -/

namespace Sys2Proof.Proofs

open Machine Safety Laws

/-! ### The head of the listing -/

theorem listedFlag_eq (b : Byte) (pos : Option Nat) : listedFlag b pos = latchFlag pos b := by
  cases pos <;> rfl

/-- The head of the listing for the entry `F`, with `m` for its ModRM byte (0 where it has none) and the cursor `cur`
after it. -/
def entryListed (F : FormatEntry) (b m : Byte) (cur : Nat) : Listed where
  entry := F
  d := latchFlag F.d b
  w := latchFlag F.w b
  s := latchFlag F.s b
  modrm := m
  reg := regAt F b m
  cur := cur

/-- The head of the listing once the first byte selected `F`. -/
def entryHead (F : FormatEntry) (buf : Buffer) (off : Nat) : Except DecodeError Listed :=
  if F.modrm then
    if off + 1 < buf.len then
      if ∃ x, F.ext = some x ∧ extract (buf.byte (off + 1)) 3 3 ≠ x then .error (unknownOpcode off)
      else .ok (entryListed F (buf.byte off) (buf.byte (off + 1)) (off + 2))
    else .error (truncated buf.len off (off + 1) 1)
  else .ok (entryListed F (buf.byte off) 0#8 (off + 1))

theorem listedHead_of_end {buf : Buffer} {off : Nat} (h : buf.len ≤ off) (fmt : List FormatEntry) :
    listedHead fmt buf off = .error (truncated buf.len off off 1) := by
  simp only [listedHead, readByte_error h]
  rfl

theorem listedHead_of_noMatch {fmt : List FormatEntry} {buf : Buffer} {off : Nat} (hlt : off < buf.len)
    (h : fmt.find? (entryMatches · (buf.byte off)) = none) : listedHead fmt buf off = .error (unknownOpcode off) := by
  have hfind : fmt.find? (fun F => buf.byte off &&& F.mask == F.opcode) = none := h
  simp only [listedHead, readByte_ok hlt, bind, Except.bind, hfind]
  rfl

theorem listedHead_of_match {fmt : List FormatEntry} {buf : Buffer} {off : Nat} {F : FormatEntry} (hlt : off < buf.len)
    (h : fmt.find? (entryMatches · (buf.byte off)) = some F) : listedHead fmt buf off = entryHead F buf off := by
  have hfind : fmt.find? (fun F => buf.byte off &&& F.mask == F.opcode) = some F := h
  simp only [listedHead, readByte_ok hlt, bind, Except.bind, hfind, entryHead]
  by_cases hm : F.modrm = true
  · simp only [hm, if_true]
    by_cases h1 : off + 1 < buf.len
    · have hext : (True ∧ F.ext.isSome = true ∧ F.ext ≠ some (extract (buf.byte (off + 1)) 3 3)) ↔
          ∃ x, F.ext = some x ∧ extract (buf.byte (off + 1)) 3 3 ≠ x := by
        rcases F.ext with _ | x <;> simp [eq_comm]
      simp only [readByte_ok h1, if_pos h1, hext]
      split_ifs
      · rfl
      · simp only [entryListed, listedFlag_eq, regAt, hm]
        rcases F.reg with _ | _ | _ <;> rfl
    · simp only [readByte_error (Nat.not_lt.1 h1), if_neg h1]
  · simp only [if_neg hm, entryListed, listedFlag_eq, regAt, pure, Except.pure]
    rw [if_neg fun hext => hm hext.1]
    rcases F.reg with _ | _ | _ <;> rfl

theorem entryHead_eq_ok {F : FormatEntry} {buf : Buffer} {off : Nat} {x : Listed} (h : entryHead F buf off = .ok x) :
    x.entry = F ∧ x.modrm = if F.modrm then buf.byte (off + 1) else 0#8 := by
  unfold entryHead at h
  split_ifs at h ⊢
  · cases h; exact ⟨rfl, rfl⟩
  · cases h; exact ⟨rfl, rfl⟩

/-- What the head of the listing found is the entry that the first byte selects and its ModRM byte. -/
theorem listedHead_eq_ok {fmt : List FormatEntry} {buf : Buffer} {off : Nat} {x : Listed}
    (h : listedHead fmt buf off = .ok x) :
    (∃ k, matchEntry 0 fmt (buf.byte off) = some (k, x.entry)) ∧
      x.modrm = if x.entry.modrm then buf.byte (off + 1) else 0#8 := by
  rcases Nat.lt_or_ge off buf.len with hlt | hend
  · have hfind := (matchEntry_map_snd 0 fmt (buf.byte off)).symm
    rcases hmatch : matchEntry 0 fmt (buf.byte off) with _ | ⟨k, F⟩ <;> rw [hmatch] at hfind
    · rw [listedHead_of_noMatch hlt hfind] at h
      cases h
    · rw [listedHead_of_match hlt hfind] at h
      obtain ⟨rfl, hmodrm⟩ := entryHead_eq_ok h
      exact ⟨⟨k, rfl⟩, hmodrm⟩
  · rw [listedHead_of_end hend] at h
    cases h

/-! ### The operands -/

theorem toInt_signExtend16 (b : Byte) : (b.signExtend 16).toInt = b.toInt := BitVec.toInt_signExtend_of_le (by decide)

theorem listedResolve_eq (regs : RegRom) (ea : EaRom) (buf : Buffer) (off : Nat) (w s : Bool) (reg : BitVec 3)
    (mod : BitVec 2) (rm : BitVec 3) (cur : Nat) (r : Role) :
    listedResolve regs ea buf off w s reg mod rm cur r = resolveAt regs ea buf off w s reg mod rm cur r := by
  cases r with
  | reg => rfl
  | rm =>
    simp only [listedResolve, resolveAt, Engine.readRm, rmOperand_eq, bind, Except.bind, pure, Except.pure]
    split_ifs
    · rfl
    · rcases Engine.readHalf buf off cur with _ | ⟨_, _⟩ <;> rfl
    · rfl
    · rcases Engine.readByte buf off cur with _ | ⟨_, _⟩ <;> rfl
    · rcases Engine.readHalf buf off cur with _ | ⟨_, _⟩ <;> rfl
  | imm =>
    simp only [listedResolve, resolveAt, Engine.readImm, immOperand_eq, toInt_signExtend16, bind, Except.bind, pure,
      Except.pure]
    cases w
    · rcases Engine.readByte buf off cur with _ | ⟨_, _⟩ <;> rfl
    cases s
    · rcases Engine.readHalf buf off cur with _ | ⟨_, _⟩ <;> rfl
    · rcases Engine.readByte buf off cur with _ | ⟨_, _⟩ <;> rfl

/-- The operands of `x` in the order of the roles (R130). -/
def readInRoleOrder (regs : RegRom) (ea : EaRom) (buf : Buffer) (off : Nat) (x : Listed) : Except DecodeError Response := do
  let (opA, cur) ← x.operand regs ea buf off x.cur x.entry.roles.1
  let (opB, cur) ← x.operand regs ea buf off cur x.entry.roles.2
  return x.answer off opA opB cur

/-- The operand of a role among the three of a layout. -/
def operandOf (reg rm imm : Operand) : Role → Operand
  | .reg => reg
  | .rm  => rm
  | .imm => imm

/-- The operands of `x` in the order of the layout (R70). -/
def readInLayoutOrder (regs : RegRom) (ea : EaRom) (buf : Buffer) (off : Nat) (x : Listed) : Except DecodeError Response := do
  let (reg, cur) ← x.operand regs ea buf off x.cur .reg
  let (rm, cur) ← if x.entry.modrm then x.operand regs ea buf off cur .rm else pure (reg, cur)
  let (imm, cur) ← if x.entry.imm then x.operand regs ea buf off cur .imm else pure (reg, cur)
  return x.answer off (operandOf reg rm imm x.entry.roles.1) (operandOf reg rm imm x.entry.roles.2) cur

theorem layoutListing_eq (fmt : List FormatEntry) (regs : RegRom) (ea : EaRom) (buf : Buffer) (off : Nat) :
    layoutListing fmt regs ea buf off =
      asResponse ((listedHead fmt buf off).bind (readInLayoutOrder regs ea buf off)) :=
  rfl

theorem answer_eq (x : Listed) (off cur : Nat) (a b : Operand) :
    x.answer off a b cur =
      .ok { mnem := x.entry.mnem, op0 := (direction x.entry.d x.entry.roles x.d a b).1,
            op1 := (direction x.entry.d x.entry.roles x.d a b).2, w := x.w } (cur - off) := by
  have hswap : (x.entry.d.isSome && swappable x.entry.roles && x.d) = true ↔
      x.entry.d.isSome = true ∧ (x.entry.roles = (.rm, .reg) ∨ x.entry.roles = (.reg, .rm)) ∧ x.d = true := by
    simp [swappable, and_assoc]
  simp only [Listed.answer, direction, hswap]
  split_ifs <;> rfl

/-- Steps 4 to 6 of the engine are the last lines of the listing. -/
theorem rolesAt_eq (regs : RegRom) (ea : EaRom) (buf : Buffer) (F : FormatEntry) (off cur : Nat) (m : Byte) :
    rolesAt regs ea buf F off cur (regAt F (buf.byte off) m) m =
      asResponse (readInRoleOrder regs ea buf off (entryListed F (buf.byte off) m cur)) := by
  simp only [rolesAt, readInRoleOrder, Listed.operand, listedResolve_eq, answer_eq, entryListed, bind, Except.bind]
  split
  · next hfirst => rw [hfirst]; rfl
  · next hfirst =>
    rw [hfirst]
    dsimp only
    split
    · next hsecond => rw [hsecond]; rfl
    · next hsecond => rw [hsecond]; rfl

theorem entryAt_eq (regs : RegRom) (ea : EaRom) (buf : Buffer) (F : FormatEntry) (off : Nat) :
    entryAt regs ea buf F off = asResponse ((entryHead F buf off).bind (readInRoleOrder regs ea buf off)) := by
  unfold entryAt entryHead
  split_ifs
  · rfl
  · exact rolesAt_eq ..
  · rfl
  · exact rolesAt_eq ..

/-- The decode is the head of the listing and the operands in the order of the roles (R130). -/
theorem engine_decode_eq_roleOrder (fmt : List FormatEntry) (regs : RegRom) (ea : EaRom) (buf : Buffer) (off : Nat) :
    Engine.decode fmt regs ea buf off =
      asResponse ((listedHead fmt buf off).bind (readInRoleOrder regs ea buf off)) := by
  rw [engine_decode_eq_elim]
  split_ifs with hlt
  · rcases hfind : fmt.find? (entryMatches · (buf.byte off)) with _ | F
    · rw [listedHead_of_noMatch hlt hfind]; rfl
    · rw [listedHead_of_match hlt hfind]
      exact entryAt_eq ..
  · rw [listedHead_of_end (Nat.not_lt.1 hlt)]; rfl

/-! ### The order of the fields -/

theorem mod_of_dispLength_zero {m : Byte} (h : Engine.dispLength m = 0) :
    extract m 6 2 = 0b11#2 ∨ extract m 6 2 = 0b00#2 ∧ extract m 0 3 ≠ 0b110#3 := by
  unfold Engine.dispLength at h
  split_ifs at h with h11 h00 hdirect
  · exact .inl h11
  · exact .inr ⟨h00, hdirect⟩

section ReadOrder
variable (regs : RegRom) (ea : EaRom) (buf : Buffer) (off : Nat) {x : Listed}

/-- With no displacement byte the role RM reads nothing, wherever the cursor stands. -/
theorem operand_rm_of_dispLength_zero (h : Engine.dispLength x.modrm = 0) :
    ∃ a, ∀ cur, x.operand regs ea buf off cur .rm = .ok (a, cur) := by
  simp only [Listed.operand, listedResolve]
  rcases mod_of_dispLength_zero h with h11 | ⟨h00, hdirect⟩
  · exact ⟨_, fun cur => if_pos h11⟩
  · refine ⟨.mem (.based (eaBases ea (extract x.modrm 0 3)) none), fun cur => ?_⟩
    simp [h00, hdirect, pure, Except.pure]

/-- REG reads no byte, so the two orders differ only in the displacement and the immediate: RM is read before IMM in
both, or it reads nothing. -/
theorem readInRoleOrder_eq (hne : x.entry.roles.1 ≠ x.entry.roles.2)
    (hmodrm : hasRole x.entry .rm = true → x.entry.modrm = true) (himm : x.entry.imm = hasRole x.entry .imm)
    (horder : ((x.entry.modrm = true → hasRole x.entry .rm = true) ∧ x.entry.roles ≠ (.imm, .rm)) ∨
      Engine.dispLength x.modrm = 0) :
    readInRoleOrder regs ea buf off x = readInLayoutOrder regs ea buf off x := by
  have hreg : ∀ cur, x.operand regs ea buf off cur .reg = .ok (.reg (regName regs x.w x.reg), cur) := fun _ => rfl
  unfold readInRoleOrder readInLayoutOrder
  unfold hasRole at hmodrm himm horder
  obtain ⟨⟨r₁, r₂⟩, hroles⟩ : ∃ roles, x.entry.roles = roles := ⟨_, rfl⟩
  rw [hroles] at hne hmodrm himm horder ⊢
  rw [himm]
  cases r₁ <;> cases r₂ <;> simp only [hreg, bind, Except.bind, pure, Except.pure]
  case reg.reg | rm.rm | imm.imm => exact absurd rfl hne
  case reg.rm | rm.reg =>
    rw [hmodrm rfl, if_pos rfl]
    rcases x.operand regs ea buf off x.cur .rm with _ | ⟨_, _⟩ <;> rfl
  case rm.imm =>
    rw [hmodrm rfl, if_pos rfl]
    rcases x.operand regs ea buf off x.cur .rm with _ | ⟨_, cur⟩
    · rfl
    · rcases x.operand regs ea buf off cur .imm with _ | ⟨_, _⟩ <;> rfl
  case reg.imm | imm.reg =>
    cases hm : x.entry.modrm
    · rw [if_neg Bool.false_ne_true]
      rcases x.operand regs ea buf off x.cur .imm with _ | ⟨_, _⟩ <;> rfl
    · have hzero : Engine.dispLength x.modrm = 0 := by
        rcases horder with ⟨hrole, -⟩ | hzero
        · cases hrole hm
        · exact hzero
      obtain ⟨a, ha⟩ := operand_rm_of_dispLength_zero regs ea buf off hzero
      simp only [ha]
      rcases x.operand regs ea buf off x.cur .imm with _ | ⟨_, _⟩ <;> rfl
  case imm.rm =>
    have hzero : Engine.dispLength x.modrm = 0 := by
      rcases horder with ⟨-, hroles⟩ | hzero
      · exact absurd rfl hroles
      · exact hzero
    obtain ⟨a, ha⟩ := operand_rm_of_dispLength_zero regs ea buf off hzero
    rw [hmodrm rfl]
    simp only [ha]
    rcases x.operand regs ea buf off x.cur .imm with _ | ⟨_, _⟩ <;> rfl

end ReadOrder

/-- An image passes the check when each of its entries does (R263). -/
theorem checkEntry_of_checkImage {mnemonics : List Mnemonic} {F : FormatEntry} :
    ∀ {image : List FormatEntry} {k : Nat}, checkImageFrom mnemonics k image = none → F ∈ image →
      checkEntry mnemonics F = none
  | G :: image, k, h, hF => by
    unfold checkImageFrom at h
    split at h
    · cases h
    · next hG =>
      rcases List.mem_cons.1 hF with rfl | hF
      · exact hG
      · exact checkEntry_of_checkImage h hF

theorem mem_of_matchEntry {fmt : List FormatEntry} {b : Byte} {k : Nat} {F : FormatEntry}
    (h : matchEntry 0 fmt b = some (k, F)) : F ∈ fmt := by
  rw [← Nat.zero_add k] at h
  exact List.mem_of_getElem? (matchEntry_eq_some.1 h).1

/-- Settles O49: the head is common to both, and a checked entry's operands may be read in either order. -/
theorem fieldsComeInLayoutOrder : Obligations.FieldsComeInLayoutOrder := by
  intro mnemonics fmt regs ea buf off hcheck horder
  rw [engine_decode_eq_roleOrder, layoutListing_eq]
  rcases hhead : listedHead fmt buf off with e | x
  · rfl
  obtain ⟨⟨k, hmatch⟩, hmodrm⟩ := listedHead_eq_ok hhead
  obtain ⟨hne, hrm, himm⟩ := roles_of_checked (checkEntry_of_checkImage hcheck (mem_of_matchEntry hmatch))
  refine congrArg asResponse (readInRoleOrder_eq regs ea buf off hne hrm himm ((horder k x.entry hmatch).imp_right ?_))
  intro hzero
  rw [hmodrm]
  split_ifs
  · exact hzero
  · decide

end Sys2Proof.Proofs
end

section
/-! PROOFS. The decode with the default image is the per-format decoder's response (40_decode_engine R130, R150 to R152,
R170, R171), the decode with any image is the listing of R130, and what a step that serves a decode answers (R135). -/

namespace Sys2Proof.Proofs

open Machine Safety Laws

/-! ### The default image -/

theorem fetchBytes_of_lt {buf : Buffer} {off : Nat} (h : off < buf.len) :
    fetchBytes buf off = buf.byte off :: buf.window (off + 1) 5 := by
  rw [fetchBytes, Buffer.window, if_pos h]

theorem fetchBytes_of_end {buf : Buffer} {off : Nat} (h : buf.len ≤ off) : fetchBytes buf off = [] := by
  rw [fetchBytes, Buffer.window, if_neg (Nat.not_lt.2 h)]

theorem truncated_opcode (len off : Nat) : truncated len off off 1 = rejectError len off (.truncated 1) := by
  rw [truncated, rejectError, Nat.add_sub_cancel_left]

/-- The default image decodes as the per-format decoder does, at every offset. -/
theorem engine_decode_defaultImage (regs : RegRom) (ea : EaRom) (buf : Buffer) (off : Nat) :
    Engine.decode defaultImage regs ea buf off =
      responseOf regs ea buf.len off (Decode.decode (fetchBytes buf off)) := by
  rcases Nat.lt_or_ge off buf.len with hlt | hend
  · rw [fetchBytes_of_lt hlt]
    rcases hrow : Decode.rowOfByte (buf.byte off) with _ | row
    · rw [engine_decode_eq_elim, if_pos hlt, find?_defaultImage, hrow, decode_of_no_row hrow]
      rfl
    · rw [engine_decode_of_row hlt hrow]
      simp only [Decode.decode, Decode.takeByte, hrow]
  · rw [engine_decode_eq_elim, if_neg (Nat.not_lt.2 hend), truncated_opcode, fetchBytes_of_end hend]
    rfl

/-- Settles O30: `responseOf` is the statement's match. -/
theorem generalDecodeAgreesWithFormats : Obligations.GeneralDecodeAgreesWithFormats := by
  intro regs ea buf off
  rw [engine_decode_defaultImage]
  rcases Decode.decode (fetchBytes buf off) with r | ⟨i, rest⟩ <;> rfl

/-- The response of bytes that decode is the instruction's meaning. -/
theorem respond_responseOf_ok {bytes rest : List Byte} {i : Instr} (h : Decode.decode bytes = .ok (i, rest)) (s : State)
    (len off : Nat) : respond s (responseOf s.regRom s.eaRom len off (Decode.decode bytes)) = exec i s := by
  rw [h, exec_eq_respond]; rfl

/-- The response of bytes that the decoder rejects is the error (R237). -/
theorem respond_responseOf_error {bytes : List Byte} {r : Reject} (h : Decode.decode bytes = .error r) (s : State)
    (len off : Nat) :
    respond s (responseOf s.regRom s.eaRom len off (Decode.decode bytes)) = respondError s (rejectError len off r) := by
  rw [h]; rfl

/-- Settles O28: either requester gets the general algorithm's response, which is the per-format decoder's. -/
theorem stepRunsTheDecodedInstruction : Obligations.StepRunsTheDecodedInstruction := by
  intro s himage
  refine ⟨fun c rest hserve => ?_, fun buf offset more hserve hlen => ?_⟩
  · rw [step_stream hserve, himage, engine_decode_defaultImage]
    exact ⟨fun i more h => respond_responseOf_ok h s _ _, fun r h => respond_responseOf_error h s _ _⟩
  · rw [step_port hserve hlen, himage, engine_decode_defaultImage]
    exact ⟨fun i rest h => respond_responseOf_ok h s _ _, fun r h => respond_responseOf_error h s _ _⟩

/-! ### Before initialisation -/

/-- Admission does not look at what the request would do: before `ready` it is not admitted whatever `k` is. -/
theorem whenAdmitted_of_unready {s : State} (h : s.ready = false) (buf : Buffer) (k : Result) :
    s.whenAdmitted buf k = .fault .requestBeforeReady := by
  rw [State.whenAdmitted, if_neg (ne_true_of_eq_false h)]

/-- Settles O20: both requests go through the same admission, which tests `ready` first. -/
theorem noRequestBeforeReady : Obligations.NoRequestBeforeReady := by
  intro s hready
  constructor
  · intro buf offset rest hin
    rw [step_of_decodeRequest hin, whenAdmitted_of_unready hready]
  · intro buf rest hin
    rw [step_of_streamRequest hin, openStream, whenAdmitted_of_unready hready]

/-! ### Any image -/

theorem listing_eq (fmt : List FormatEntry) (regs : RegRom) (ea : EaRom) (buf : Buffer) (off : Nat) :
    listing fmt regs ea buf off = asResponse ((listedHead fmt buf off).bind (readInRoleOrder regs ea buf off)) :=
  rfl

/-- Settles O50: both are the head of the listing and then the operands in the order of the roles. -/
theorem decodeIsTheListing : Obligations.DecodeIsTheListing := by
  intro fmt regs ea buf off
  rw [engine_decode_eq_roleOrder, listing_eq]

/-- A window stops at its size or at the end of the buffer. -/
theorem window_eq_map (buf : Buffer) (off n : Nat) :
    buf.window off n = (List.range (min n (buf.len - off))).map fun k => buf.byte (off + k) := by
  induction n generalizing off with
  | zero => rw [Buffer.window, Nat.zero_min]; rfl
  | succ n ih =>
    rw [Buffer.window]
    split_ifs with hlt
    · have hlen : min (n + 1) (buf.len - off) = min n (buf.len - (off + 1)) + 1 := by omega
      rw [hlen, List.range_succ_eq_map, List.map_cons, List.map_map, ih]
      simp only [Function.comp_def, Nat.add_zero, Nat.succ_eq_add_one, Nat.add_assoc, Nat.add_comm 1]
    · rw [Nat.sub_eq_zero_of_le (Nat.not_lt.1 hlt), Nat.min_zero]; rfl

/-- Settles O51: either requester gets the general algorithm's response, which is the listing's. -/
theorem readingAheadChangesNoResponse : Obligations.ReadingAheadChangesNoResponse := by
  refine ⟨fun s buf off rest hserve hlen => ?_, fun s c rest hserve => ?_, fun buf off => window_eq_map buf off 6⟩
  · rw [decodeRequestGetsOneResponse s buf off rest hserve hlen, decodeIsTheListing]
  · rw [step_stream hserve, decodeIsTheListing]
    rcases listing s.fmtRom s.regRom s.eaRom c.buf c.offset with ⟨v, n⟩ | e
    · exact respond_ok_stream hserve v n
    · exact respond_err_stream hserve e

end Sys2Proof.Proofs
end

section
/-! PROOFS. What a decode reads, in closed form: a role reads its bytes or is a truncation. From it, the bytes a response
depends on (40_decode_engine R132), and the two causes of UnknownOpcode (R121, R126). -/

namespace Sys2Proof.Proofs

open Machine Safety Laws

/-! ### What a role reads -/

theorem readByte_eq_ite (buf : Buffer) (start cur : Nat) :
    Engine.readByte buf start cur =
      if cur + 1 ≤ buf.len then .ok (buf.byte cur, cur + 1) else .error (truncated buf.len start cur 1) := by
  split_ifs with h
  · exact readByte_ok h
  · exact readByte_error (by omega)

theorem readHalf_eq_ite (buf : Buffer) (start cur : Nat) :
    Engine.readHalf buf start cur =
      if cur + 2 ≤ buf.len then .ok (littleEndian (buf.byte cur) (buf.byte (cur + 1)), cur + 2)
      else .error (truncated buf.len start cur 2) := by
  split_ifs with h
  · exact readHalf_ok h
  · exact readHalf_error (by omega)

/-- The RM field of the ModRM byte `m` with its displacement at `cur` (R94). -/
def rmFieldAt (buf : Buffer) (m : Byte) (cur : Nat) : RmField :=
  if extract m 6 2 = 0b11#2 then .register (extract m 0 3)
  else if extract m 6 2 = 0b00#2 ∧ extract m 0 3 = 0b110#3 then
    .direct (littleEndian (buf.byte cur) (buf.byte (cur + 1)))
  else if extract m 6 2 = 0b00#2 then .based (extract m 0 3)
  else if extract m 6 2 = 0b01#2 then .based8 (extract m 0 3) (buf.byte cur)
  else .based16 (extract m 0 3) (littleEndian (buf.byte cur) (buf.byte (cur + 1)))

/-- The immediate at `cur` (R97). -/
def immFieldAt (buf : Buffer) (w s : Bool) (cur : Nat) : ImmField :=
  if immIsByte w s then .imm8 (buf.byte cur) else .imm16 (littleEndian (buf.byte cur) (buf.byte (cur + 1)))

/-- The operand of a role whose bytes stand at `cur` (R127). -/
def operandAt (regs : RegRom) (ea : EaRom) (buf : Buffer) (w s : Bool) (reg : BitVec 3) (m : Byte) (cur : Nat) :
    Role → Operand
  | .reg => regOperand regs w reg
  | .rm  => rmOperand regs ea w (rmFieldAt buf m cur)
  | .imm => immOperand w (immFieldAt buf w s cur)

theorem roleLength_rm (w s : Bool) (m : Byte) : roleLength w s m .rm = Engine.dispLength m := rfl

theorem readRm_eq_ite {buf : Buffer} {cur : Nat} (hcur : cur ≤ buf.len) (start : Nat) (m : Byte) :
    Engine.readRm buf start cur (extract m 6 2) (extract m 0 3) =
      if cur + Engine.dispLength m ≤ buf.len then .ok (rmFieldAt buf m cur, cur + Engine.dispLength m)
      else .error (truncated buf.len start cur (Engine.dispLength m)) := by
  unfold Engine.readRm Engine.dispLength rmFieldAt
  rw [readByte_eq_ite, readHalf_eq_ite]
  by_cases h11 : extract m 6 2 = 0b11#2
  · simp [h11, hcur]
  by_cases h00 : extract m 6 2 = 0b00#2
  · by_cases hdirect : extract m 0 3 = 0b110#3
    · by_cases hlen : cur + 2 ≤ buf.len <;> simp [h00, hdirect, hlen]
    · simp [h00, hdirect, hcur]
  by_cases h01 : extract m 6 2 = 0b01#2
  · by_cases hlen : cur + 1 ≤ buf.len <;> simp [h01, hlen]
  · by_cases hlen : cur + 2 ≤ buf.len <;> simp [h11, h00, h01, hlen]

theorem readImm_eq_ite (buf : Buffer) (start cur : Nat) (w s : Bool) (m : Byte) :
    Engine.readImm buf start cur w s =
      if cur + roleLength w s m .imm ≤ buf.len then .ok (immFieldAt buf w s cur, cur + roleLength w s m .imm)
      else .error (truncated buf.len start cur (roleLength w s m .imm)) := by
  unfold Engine.readImm roleLength immFieldAt
  rw [readByte_eq_ite, readHalf_eq_ite]
  cases immIsByte w s
  · split_ifs <;> rfl
  · split_ifs <;> rfl

/-- A role reads its bytes, or is a truncation where the buffer ends before them (R124, R127). -/
theorem resolveAt_eq_ite {buf : Buffer} {cur : Nat} (hcur : cur ≤ buf.len) (regs : RegRom) (ea : EaRom) (off : Nat)
    (w s : Bool) (reg : BitVec 3) (m : Byte) (r : Role) :
    resolveAt regs ea buf off w s reg (extract m 6 2) (extract m 0 3) cur r =
      if cur + roleLength w s m r ≤ buf.len then .ok (operandAt regs ea buf w s reg m cur r, cur + roleLength w s m r)
      else .error (truncated buf.len off cur (roleLength w s m r)) := by
  cases r with
  | reg => exact (if_pos hcur).symm
  | rm =>
    simp only [resolveAt, readRm_eq_ite hcur]
    rw [roleLength_rm]
    by_cases hlen : cur + Engine.dispLength m ≤ buf.len
    · rw [if_pos hlen, if_pos hlen]; rfl
    · rw [if_neg hlen, if_neg hlen]
  | imm =>
    simp only [resolveAt, readImm_eq_ite _ _ _ _ _ m]
    by_cases hlen : cur + roleLength w s m .imm ≤ buf.len
    · rw [if_pos hlen, if_pos hlen]; rfl
    · rw [if_neg hlen, if_neg hlen]

theorem littleEndian_congr {buf buf' : Buffer} {cur : Nat} (h : ∀ i, cur ≤ i → i < cur + 2 → buf'.byte i = buf.byte i) :
    littleEndian (buf'.byte cur) (buf'.byte (cur + 1)) = littleEndian (buf.byte cur) (buf.byte (cur + 1)) := by
  rw [h cur le_rfl (by omega), h (cur + 1) (by omega) (by omega)]

theorem rmFieldAt_congr {buf buf' : Buffer} {m : Byte} {cur : Nat}
    (h : ∀ i, cur ≤ i → i < cur + Engine.dispLength m → buf'.byte i = buf.byte i) :
    rmFieldAt buf' m cur = rmFieldAt buf m cur := by
  unfold Engine.dispLength at h
  unfold rmFieldAt
  split_ifs with h11 hdirect h00 h01
  · rfl
  · rw [if_neg h11, if_pos hdirect.1, if_pos hdirect.2] at h
    rw [littleEndian_congr h]
  · rfl
  · rw [if_neg h11, if_neg h00, if_pos h01] at h
    rw [h cur le_rfl (Nat.lt_succ_self cur)]
  · rw [if_neg h11, if_neg h00, if_neg h01] at h
    rw [littleEndian_congr h]

theorem immFieldAt_congr {buf buf' : Buffer} {w s : Bool} {cur : Nat}
    (h : ∀ i, cur ≤ i → i < cur + (if immIsByte w s then 1 else 2) → buf'.byte i = buf.byte i) :
    immFieldAt buf' w s cur = immFieldAt buf w s cur := by
  unfold immFieldAt
  split_ifs at h ⊢
  · rw [h cur le_rfl (Nat.lt_succ_self cur)]
  · rw [littleEndian_congr h]

/-- An operand depends on the bytes of its role only. -/
theorem operandAt_congr {buf buf' : Buffer} {w s : Bool} {m : Byte} {cur : Nat} {r : Role}
    (h : ∀ i, cur ≤ i → i < cur + roleLength w s m r → buf'.byte i = buf.byte i) (regs : RegRom) (ea : EaRom)
    (reg : BitVec 3) : operandAt regs ea buf' w s reg m cur r = operandAt regs ea buf w s reg m cur r := by
  cases r with
  | reg => rfl
  | rm => exact congrArg (rmOperand regs ea w) (rmFieldAt_congr h)
  | imm => exact congrArg (immOperand w) (immFieldAt_congr h)

theorem roleLength_le (w s : Bool) (m : Byte) (r : Role) : roleLength w s m r ≤ 2 := by
  unfold roleLength Engine.dispLength
  split
  · decide
  · split_ifs <;> decide
  · split_ifs <;> decide

/-! ### The bytes a response depends on -/

/-- Two buffers that a decode reading the bytes from `off` to `fin` cannot tell apart: they hold the same of these bytes,
and they end at one place, or both after `fin`. -/
structure BuffersAgree (buf buf' : Buffer) (off fin : Nat) : Prop where
  ends  : buf'.len = buf.len ∨ fin ≤ buf.len ∧ fin ≤ buf'.len
  bytes : ∀ i, off ≤ i → i < fin → i < buf.len → buf'.byte i = buf.byte i

/-- The bytes of the two roles of `F` with the ModRM byte `m` (R127). -/
def rolesLength (F : FormatEntry) (b m : Byte) : Nat :=
  roleLength (latchFlag F.w b) (latchFlag F.s b) m F.roles.1 + roleLength (latchFlag F.w b) (latchFlag F.s b) m F.roles.2

/-- Where the instruction at `off` ends whose first byte selected `F`. -/
def entryEnd (F : FormatEntry) (buf : Buffer) (off : Nat) : Nat :=
  if F.modrm then off + 2 + rolesLength F (buf.byte off) (buf.byte (off + 1))
  else off + 1 + rolesLength F (buf.byte off) 0#8

/-- What a decode that begins later, or ends earlier, cannot tell apart either. -/
theorem BuffersAgree.mono {buf buf' : Buffer} {off off' fin fin' : Nat} (h : BuffersAgree buf buf' off fin) (hoff : off ≤ off')
    (hfin : fin' ≤ fin) : BuffersAgree buf buf' off' fin' where
  ends := h.ends.imp_right fun ⟨hlen, hlen'⟩ => ⟨hfin.trans hlen, hfin.trans hlen'⟩
  bytes i hi hlt := h.bytes i (hoff.trans hi) (hlt.trans_le hfin)

/-- What lies in the one buffer before the end of the decode lies in the other. -/
theorem BuffersAgree.le_len {buf buf' : Buffer} {off fin : Nat} (h : BuffersAgree buf buf' off fin) {cur : Nat}
    (hcur : cur ≤ buf.len) (hfin : cur ≤ fin) : cur ≤ buf'.len := by
  obtain hlen | ⟨-, hlen'⟩ := h.ends
  · exact hlen ▸ hcur
  · exact hfin.trans hlen'

theorem BuffersAgree.lt_len {buf buf' : Buffer} {off fin : Nat} (h : BuffersAgree buf buf' off fin) {cur : Nat}
    (hcur : cur < buf.len) (hfin : cur < fin) : cur < buf'.len :=
  h.le_len hcur hfin

/-- A decode that ends outside the buffer is told apart from every buffer of another length. -/
theorem BuffersAgree.len_eq {buf buf' : Buffer} {off fin : Nat} (h : BuffersAgree buf buf' off fin) (hfin : ¬fin ≤ buf.len) :
    buf'.len = buf.len :=
  h.ends.resolve_right fun hends => hfin hends.1

theorem resolveAt_ok_end {regs : RegRom} {ea : EaRom} {buf : Buffer} {off cur cur' : Nat} {w s : Bool} {reg : BitVec 3}
    {m : Byte} {r : Role} {a : Operand} (hcur : cur ≤ buf.len)
    (h : resolveAt regs ea buf off w s reg (extract m 6 2) (extract m 0 3) cur r = .ok (a, cur')) :
    cur' = cur + roleLength w s m r ∧ cur' ≤ buf.len := by
  rw [resolveAt_eq_ite hcur] at h
  split_ifs at h with hlen
  cases h
  exact ⟨rfl, hlen⟩

theorem resolveAt_congr {buf buf' : Buffer} {cur : Nat} {w s : Bool} {m : Byte} {r : Role} (hcur : cur ≤ buf.len)
    (h : BuffersAgree buf buf' cur (cur + roleLength w s m r)) (regs : RegRom) (ea : EaRom) (off : Nat) (reg : BitVec 3) :
    resolveAt regs ea buf' off w s reg (extract m 6 2) (extract m 0 3) cur r =
      resolveAt regs ea buf off w s reg (extract m 6 2) (extract m 0 3) cur r := by
  rw [resolveAt_eq_ite hcur, resolveAt_eq_ite (h.le_len hcur (Nat.le_add_right ..))]
  by_cases hlen : cur + roleLength w s m r ≤ buf.len
  · rw [if_pos hlen, if_pos (h.le_len hlen le_rfl),
      operandAt_congr fun i hi hlt => h.bytes i hi hlt (hlt.trans_le hlen)]
  · rw [h.len_eq hlen, if_neg hlen, if_neg hlen]

theorem rolesAt_congr {buf buf' : Buffer} {F : FormatEntry} {off cur : Nat} {m : Byte} (hcur : cur ≤ buf.len)
    (hbyte : buf'.byte off = buf.byte off) (h : BuffersAgree buf buf' cur (cur + rolesLength F (buf.byte off) m))
    (regs : RegRom) (ea : EaRom) (reg : BitVec 3) :
    rolesAt regs ea buf' F off cur reg m = rolesAt regs ea buf F off cur reg m := by
  unfold rolesLength at h
  rw [← Nat.add_assoc] at h
  unfold rolesAt
  rw [hbyte, resolveAt_congr hcur (h.mono le_rfl (Nat.le_add_right ..))]
  split
  · rfl
  · next hfirst =>
    obtain ⟨rfl, hlen⟩ := resolveAt_ok_end hcur hfirst
    rw [resolveAt_congr hlen (h.mono (Nat.le_add_right ..) le_rfl)]

/-- A decode of an entry depends on the bytes of its instruction only, as far as the buffer holds them (R132). -/
theorem entryAt_congr {buf buf' : Buffer} {F : FormatEntry} {off : Nat} (hlt : off < buf.len)
    (h : BuffersAgree buf buf' off (entryEnd F buf off)) (regs : RegRom) (ea : EaRom) :
    entryAt regs ea buf' F off = entryAt regs ea buf F off := by
  unfold entryEnd at h
  unfold entryAt
  by_cases hmodrm : F.modrm = true
  · rw [if_pos hmodrm] at h ⊢
    rw [if_pos hmodrm]
    by_cases h1 : off + 1 < buf.len
    · have hbyte : buf'.byte off = buf.byte off := h.bytes off le_rfl (by omega) hlt
      have hbyte1 : buf'.byte (off + 1) = buf.byte (off + 1) := h.bytes (off + 1) (by omega) (by omega) h1
      rw [if_pos h1, if_pos (h.lt_len h1 (by omega)), hbyte, hbyte1, rolesAt_congr h1 hbyte (h.mono (by omega) le_rfl)]
    · rw [h.len_eq (by omega), if_neg h1, if_neg h1]
  · rw [if_neg hmodrm] at h ⊢
    have hbyte : buf'.byte off = buf.byte off := h.bytes off le_rfl (by omega) hlt
    rw [if_neg hmodrm, hbyte, rolesAt_congr hlt hbyte (h.mono (by omega) le_rfl)]

/-- A decode depends on its first byte and on the bytes of the instruction of the entry that this byte selects. -/
theorem decode_congr {fmt : List FormatEntry} {buf buf' : Buffer} {off : Nat} (hopcode : BuffersAgree buf buf' off (off + 1))
    (hentry : ∀ k F, off < buf.len → matchEntry 0 fmt (buf.byte off) = some (k, F) →
      BuffersAgree buf buf' off (entryEnd F buf off)) (regs : RegRom) (ea : EaRom) :
    Engine.decode fmt regs ea buf' off = Engine.decode fmt regs ea buf off := by
  rw [engine_decode_eq, engine_decode_eq]
  by_cases hlt : off < buf.len
  · rw [if_pos hlt, if_pos (hopcode.lt_len hlt (Nat.lt_succ_self off)), hopcode.bytes off le_rfl (Nat.lt_succ_self off) hlt]
    rcases hmatch : matchEntry 0 fmt (buf.byte off) with _ | ⟨k, F⟩
    · rfl
    · exact entryAt_congr hlt (hentry k F hlt hmatch) regs ea
  · rw [hopcode.len_eq hlt, if_neg hlt, if_neg hlt]

theorem entryEnd_le (F : FormatEntry) (buf : Buffer) (off : Nat) : entryEnd F buf off ≤ off + 6 := by
  have hle : ∀ b m, rolesLength F b m ≤ 4 := fun b m => Nat.add_le_add (roleLength_le ..) (roleLength_le ..)
  have hmodrm := hle (buf.byte off) (buf.byte (off + 1))
  have hnone := hle (buf.byte off) 0#8
  unfold entryEnd
  split_ifs <;> omega

theorem entryEnd_of_ok {regs : RegRom} {ea : EaRom} {buf : Buffer} {F : FormatEntry} {off n : Nat} {v : Decoded}
    (h : entryAt regs ea buf F off = .ok v n) : entryEnd F buf off = off + n := by
  unfold entryAt at h
  unfold entryEnd rolesLength
  split_ifs at h ⊢
  · have := rolesAt_length h
    omega
  · have := rolesAt_length h
    omega

/-- Settles O47: no entry reads past the sixth byte, a success has read its instruction, and both states answer with the
decode of their common ROMs. -/
theorem responseDependsOnTheInstructionBytes : Obligations.ResponseDependsOnTheInstructionBytes := by
  refine ⟨fun fmt regs ea buf buf' off hlen hbytes => ?_, fun fmt regs ea buf buf' off v n h hlen hbytes => ?_, ?_⟩
  · have hagree : BuffersAgree buf buf' off (off + 6) := ⟨.inl hlen, fun i hi hfin hlt => hbytes i hi (lt_min hlt hfin)⟩
    exact decode_congr (hagree.mono le_rfl (by omega)) (fun _ F _ _ => hagree.mono le_rfl (entryEnd_le F buf off)) regs ea
  · obtain ⟨hpos, -, hin⟩ := decode_ok_bound h
    have hagree : BuffersAgree buf buf' off (off + n) := ⟨.inr ⟨hin, hlen⟩, fun i hi hfin _ => hbytes i hi hfin⟩
    rw [← h]
    refine decode_congr (hagree.mono le_rfl (by omega)) (fun k F hlt hmatch => ?_) regs ea
    rw [engine_decode_eq, if_pos hlt, hmatch] at h
    exact entryEnd_of_ok h ▸ hagree
  · intro s₁ s₂ buf off rest₁ rest₂ hserve₁ hserve₂ hlen₁ hlen₂ hfmt hregs hea
    have hstep₁ := decodeRequestGetsOneResponse s₁ buf off rest₁ hserve₁ hlen₁
    rw [hfmt, hregs, hea] at hstep₁
    exact ⟨_, _, _, hstep₁, decodeRequestGetsOneResponse s₂ buf off rest₂ hserve₂ hlen₂, rfl, rfl⟩

/-! ### The two causes of UnknownOpcode -/

theorem rolesAt_err_truncated {regs : RegRom} {ea : EaRom} {buf : Buffer} {F : FormatEntry} {off cur : Nat}
    {reg : BitVec 3} {m : Byte} {e : DecodeError} (hcur : cur ≤ buf.len)
    (h : rolesAt regs ea buf F off cur reg m = .err e) : ∃ cur' n, e = truncated buf.len off cur' n := by
  unfold rolesAt at h
  split at h
  · next hfirst =>
    rw [resolveAt_eq_ite hcur] at hfirst
    split_ifs at hfirst
    cases h; cases hfirst
    exact ⟨_, _, rfl⟩
  · next hfirst =>
    obtain ⟨-, hlen⟩ := resolveAt_ok_end hcur hfirst
    split at h
    · next hsecond =>
      rw [resolveAt_eq_ite hlen] at hsecond
      split_ifs at hsecond
      cases h; cases hsecond
      exact ⟨_, _, rfl⟩
    · cases h

/-- The operands raise no UnknownOpcode. -/
theorem rolesAt_err_code {regs : RegRom} {ea : EaRom} {buf : Buffer} {F : FormatEntry} {off cur : Nat} {reg : BitVec 3}
    {m : Byte} {e : DecodeError} (hcur : cur ≤ buf.len) (h : rolesAt regs ea buf F off cur reg m = .err e) :
    e.code = .truncatedInstruction := by
  obtain ⟨_, _, rfl⟩ := rolesAt_err_truncated hcur h
  rfl

/-- The extension differs, and the byte that holds it is there (R126). -/
def ExtensionDiffersAt (F : FormatEntry) (buf : Buffer) (off : Nat) : Prop :=
  F.modrm = true ∧ off + 1 < buf.len ∧ ∃ x, F.ext = some x ∧ extract (buf.byte (off + 1)) 3 3 ≠ x

theorem entryAt_unknown_iff {regs : RegRom} {ea : EaRom} {buf : Buffer} {F : FormatEntry} {off : Nat} {e : DecodeError}
    (hlt : off < buf.len) :
    (entryAt regs ea buf F off = .err e ∧ e.code = .unknownOpcode) ↔ e = unknownOpcode off ∧ ExtensionDiffersAt F buf off := by
  constructor
  · rintro ⟨h, hcode⟩
    unfold entryAt at h
    split_ifs at h with hmodrm h1 hext
    · cases h; exact ⟨rfl, hmodrm, h1, hext⟩
    · cases hcode.symm.trans (rolesAt_err_code h1 h)
    · cases h; cases hcode
    · cases hcode.symm.trans (rolesAt_err_code hlt h)
  · rintro ⟨rfl, hmodrm, h1, hext⟩
    exact ⟨by rw [entryAt, if_pos hmodrm, if_pos h1, if_pos hext], rfl⟩

/-- The two causes, for every image (R121, R126). -/
theorem decode_unknown_iff {fmt : List FormatEntry} {regs : RegRom} {ea : EaRom} {buf : Buffer} {off : Nat}
    {e : DecodeError} :
    (Engine.decode fmt regs ea buf off = .err e ∧ e.code = .unknownOpcode) ↔
      e = unknownOpcode off ∧ off < buf.len ∧ (matchEntry 0 fmt (buf.byte off) = none ∨
        ∃ k F, matchEntry 0 fmt (buf.byte off) = some (k, F) ∧ ExtensionDiffersAt F buf off) := by
  rw [engine_decode_eq]
  by_cases hlt : off < buf.len
  · rw [if_pos hlt]
    rcases matchEntry 0 fmt (buf.byte off) with _ | ⟨k, F⟩
    · constructor
      · rintro ⟨h, -⟩
        cases h; exact ⟨rfl, hlt, .inl rfl⟩
      · rintro ⟨rfl, -⟩
        exact ⟨rfl, rfl⟩
    · simp [entryAt_unknown_iff hlt, hlt]
  · rw [if_neg hlt]
    constructor
    · rintro ⟨h, hcode⟩
      cases h; cases hcode
    · rintro ⟨-, hlt', -⟩
      exact absurd hlt' hlt

/-- Settles O53: the two causes; an entry with an extension has its ModRM byte. -/
theorem unknownOpcodeHasTwoCauses : Obligations.UnknownOpcodeHasTwoCauses := by
  intro fmt regs ea buf off hmodrm
  refine ⟨?_, fun e h hcode => (decode_unknown_iff.1 ⟨h, hcode⟩).1⟩
  simp only [decode_unknown_iff, exists_eq_left]
  refine and_congr_right fun _ => or_congr_right ?_
  constructor
  · rintro ⟨k, F, hmatch, -, h1, x, hx, hne⟩
    exact ⟨k, F, x, hmatch, hx, h1, hne⟩
  · rintro ⟨k, F, x, hmatch, hx, h1, hne⟩
    exact ⟨k, F, hmatch, hmodrm F (mem_of_matchEntry hmatch) (by simp [hx]), h1, x, hx, hne⟩

end Sys2Proof.Proofs
end

section
/-! PROOFS. The completions of the MOV meanings (41_mov R150 to R152): the one response of a meaning, for both requesters,
and then the value and the length of each form. -/

namespace Sys2Proof.Proofs

open Machine Safety Laws

/-- Every meaning completes, for whoever asked (R30, R191). -/
theorem completesWith_decodedValue (i : Instr) (s : State) :
    CompletesWith i s (decodedValue s.regRom s.eaRom i) i.length := by
  constructor
  · intro c rest hserve
    rw [exec_eq_respond, respond_ok_stream hserve]
  · intro buf offset rest hserve
    rw [exec_eq_respond, respond_port hserve]

theorem completesWith_of_eq {i : Instr} {s : State} {v : Decoded} {n : Nat} (hv : decodedValue s.regRom s.eaRom i = v)
    (hn : i.length = n) : CompletesWith i s v n :=
  hv ▸ hn ▸ completesWith_decodedValue i s

/-- The model's displacement length is the count that the statements restate from R83. -/
theorem dispLen_eq_rmBytesCount (rm : RmField) : rm.dispLen = rmBytesCount rm := by
  cases rm <;> rfl

/-- D exchanges the operands and changes nothing else (R104). -/
theorem decodedValue_movRmReg (regs : RegRom) (ea : EaRom) (d w : Bool) (reg : BitVec 3) (rm : RmField) :
    decodedValue regs ea (.movRmReg d w reg rm) =
      { mnem := .mov, op0 := if d then .reg (regName regs w reg) else rmValue regs ea w rm,
        op1 := if d then rmValue regs ea w rm else .reg (regName regs w reg), w := w } := by
  cases d <;> rfl

/-- Settles O21: one value for all forms of the RM operand; each form gives its operand and its length. -/
theorem movRegisterMemoryCompletes : Obligations.MovRegisterMemoryCompletes := by
  intro d w reg s
  have hvalue (rm : RmField) := decodedValue_movRmReg s.regRom s.eaRom d w reg rm
  exact ⟨fun rm => completesWith_of_eq (hvalue (.register rm)) rfl,
    fun addr => completesWith_of_eq (hvalue (.direct addr)) rfl,
    fun rm => completesWith_of_eq (hvalue (.based rm)) rfl,
    fun rm b => completesWith_of_eq (hvalue (.based8 rm b)) rfl,
    fun rm v => completesWith_of_eq (hvalue (.based16 rm v)) rfl⟩

/-- Settles O22: the value and the length of the short form are those of its one or two immediate bytes. -/
theorem movImmediateRegisterCompletes : Obligations.MovImmediateRegisterCompletes := fun reg s =>
  ⟨fun b => completesWith_decodedValue (.movImmReg false reg (.imm8 b)) s,
    fun v => completesWith_decodedValue (.movImmReg true reg (.imm16 v)) s⟩

theorem length_movImmRm (w : Bool) (rm : RmField) (imm : ImmField) :
    (Instr.movImmRm w rm imm).length = 2 + rmBytesCount rm + imm.len := by
  rw [Instr.length, dispLen_eq_rmBytesCount]

/-- Settles O23: the displacement bytes depend on the form of the destination, the immediate bytes on the width. -/
theorem movImmediateMemoryCompletes : Obligations.MovImmediateMemoryCompletes := fun rm _ =>
  ⟨fun b => completesWith_of_eq rfl (length_movImmRm false rm (.imm8 b)),
    fun v => completesWith_of_eq rfl (length_movImmRm true rm (.imm16 v))⟩

end Sys2Proof.Proofs
end

section
/-! PROOFS. The completions of the ADD meanings (42_add R170, R171): the value and the length of each form. -/

namespace Sys2Proof.Proofs

open Machine Safety

/-- D exchanges the operands and changes nothing else (R104). -/
theorem decodedValue_addRmReg (regs : RegRom) (ea : EaRom) (d w : Bool) (reg : BitVec 3) (rm : RmField) :
    decodedValue regs ea (.addRmReg d w reg rm) =
      { mnem := .add, op0 := if d then .reg (regName regs w reg) else rmValue regs ea w rm,
        op1 := if d then rmValue regs ea w rm else .reg (regName regs w reg), w := w } := by
  cases d <;> rfl

theorem length_addRmReg (d w : Bool) (reg : BitVec 3) (rm : RmField) :
    (Instr.addRmReg d w reg rm).length = 2 + rmBytesCount rm := by
  rw [Instr.length, dispLen_eq_rmBytesCount]

theorem length_addImmRm (sx w : Bool) (rm : RmField) (imm : ImmField) :
    (Instr.addImmRm sx w rm imm).length = 2 + rmBytesCount rm + imm.len := by
  rw [Instr.length, dispLen_eq_rmBytesCount]

/-- Settles O24: one completion for all forms of the RM operand; each form computes its operand and its length. -/
theorem addRegisterMemoryCompletes : Obligations.AddRegisterMemoryCompletes := by
  intro d w reg s
  have hform (rm : RmField) :=
    completesWith_of_eq (decodedValue_addRmReg s.regRom s.eaRom d w reg rm) (length_addRmReg d w reg rm)
  exact ⟨fun rm => hform (.register rm), fun addr => hform (.direct addr), fun rm => hform (.based rm),
    fun rm b => hform (.based8 rm b), fun rm v => hform (.based16 rm v)⟩

/-- Settles O25: S does not enter the value (R105); the length counts the immediate's bytes, one or two. -/
theorem addImmediateMemoryCompletes : Obligations.AddImmediateMemoryCompletes := fun rm _ =>
  ⟨fun sx b => completesWith_of_eq rfl (length_addImmRm sx false rm (.imm8 b)),
    fun b => completesWith_of_eq rfl (length_addImmRm true true rm (.imm8 b)),
    fun v => completesWith_of_eq rfl (length_addImmRm false true rm (.imm16 v))⟩

end Sys2Proof.Proofs
end

section
/-! PROOFS. What a step of the block makes of one stream (43_stream_driver R191, R192, R196): nothing, one step of the
sequencer where the host takes an element from it, an abandonment, or a change of its buffer. -/

namespace Sys2Proof.Proofs

open Machine Safety Laws

/-! ### One step of the sequencer, as a function of the stream -/

section Advance
variable {s : State} {c : StreamCtx}

theorem advance_of_ended (h : c.phase ≠ .running) : advance s c = c := if_pos h

theorem advance_at_end (hrun : c.phase = .running) (hend : c.offset = c.buf.len) : advance s c = c.finish := by
  rw [advance, if_neg (not_not.2 hrun), if_pos hend]; rfl

theorem advance_inside (hrun : c.phase = .running) (hin : c.offset ≠ c.buf.len) :
    advance s c = c.emit (Engine.decode s.fmtRom s.regRom s.eaRom c.buf c.offset) := by
  rw [advance, if_neg (not_not.2 hrun), if_neg hin]
  rcases Engine.decode s.fmtRom s.regRom s.eaRom c.buf c.offset <;> rfl

variable (s c) in
/-- The stream stays, ends at its end, or emits one response. -/
theorem advance_cases : advance s c = c ∨ advance s c = c.finish ∨ ∃ r, advance s c = c.emit r := by
  by_cases hrun : c.phase = .running
  · by_cases hend : c.offset = c.buf.len
    · exact .inr (.inl (advance_at_end hrun hend))
    · exact .inr (.inr ⟨_, advance_inside hrun hend⟩)
  · exact .inl (advance_of_ended hrun)

theorem offset_le_emit (r : Response) : c.offset ≤ (c.emit r).offset := by
  cases r with
  | ok i n => exact Nat.le_add_right ..
  | err e => exact Nat.le_refl _

theorem emit_out_append (r : Response) : ∃ e, (c.emit r).out = c.out ++ [e] := by
  cases r <;> exact ⟨_, rfl⟩

theorem offset_le_advance : c.offset ≤ (advance s c).offset := by
  rcases advance_cases s c with h | h | ⟨r, h⟩ <;> rw [h]
  · exact Nat.le_refl _
  · exact offset_le_emit r

theorem advance_out : (advance s c).out = c.out ∨ ∃ e, (advance s c).out = c.out ++ [e] := by
  rcases advance_cases s c with h | h | ⟨r, h⟩ <;> rw [h]
  · exact .inl rfl
  · exact .inl rfl
  · exact .inr (emit_out_append r)

/-- The sequencer reads the ROMs and no other part of the state (R198). -/
theorem advance_congr {t : State} (hfmt : t.fmtRom = s.fmtRom) (hreg : t.regRom = s.regRom) (hea : t.eaRom = s.eaRom) :
    advance t = advance s := by
  funext c
  rw [advance, advance, hfmt, hreg, hea]

end Advance

/-! ### What a step does to one stream -/

/-- The host takes an element from the stream `c` at `k`, which is selected, runs and is not abandoned. -/
structure TakenFrom (s : State) (k : Nat) (c : StreamCtx) : Prop where
  first : ∃ rest, s.inputs = .take :: rest
  selected : k = s.turn
  running : c.phase = .running
  held : c.abandoned = false

/-- What a step from `s` makes of the stream `c` that stands at `k`. -/
inductive StreamStep (s : State) (k : Nat) (c : StreamCtx) : StreamCtx → Prop where
  | untouched : StreamStep s k c c
  | taken (h : TakenFrom s k c) : StreamStep s k c (advance s c)
  | abandoned : StreamStep s k c { c with abandoned := true }
  | written (buf : Buffer) : StreamStep s k c { c with buf := buf }

/-- A change of the stream `j` is, for the stream at `k`, that change where `j = k`, and otherwise none. -/
theorem streamStep_of_modify {s : State} {k : Nat} {c : StreamCtx} (hc : s.streams[k]? = some c) (j : Nat)
    {f : StreamCtx → StreamCtx} (hf : j = k → StreamStep s k c (f c)) :
    ∃ c', (s.streams.modify j f)[k]? = some c' ∧ StreamStep s k c c' := by
  refine ⟨_, getElem?_modify_of_some hc j f, ?_⟩
  split
  · next hj => exact hf hj
  · exact .untouched

/-- Every step that answers keeps each stream in its place, changed in one of the four ways. -/
theorem step_streamStep {s t : State} {k : Nat} {c : StreamCtx} (h : step s = .next t) (hc : s.streams[k]? = some c) :
    ∃ c', t.streams[k]? = some c' ∧ StreamStep s k c c' := by
  have selected {d : StreamCtx} (hd : s.streams[s.turn]? = some d) (hk : s.turn = k) : d = c :=
    Option.some.inj (hd.symm.trans (hk ▸ hc))
  rcases step_cases h with ⟨-, rfl⟩ | ⟨_, _, -, -, -, -, rfl⟩ | ⟨d, rest, hin, hd, hrun, hheld, hend, rfl⟩ |
    ⟨d, rest, ⟨-, hin, hd, hrun, hheld, hinside⟩, rfl⟩ | ⟨_, _, _, -, -, rfl⟩ | ⟨_, _, -, -, -, -, rfl⟩ |
    ⟨_, _, _, -, -, -, rfl⟩ | ⟨_, _, -, -, -, rfl⟩ | ⟨_, _, _, -, -, -, -, rfl⟩ | ⟨j, d, _, -, hd, rfl⟩ |
    ⟨j, i, b, d, _, -, hd, -, -, rfl⟩
  case inl => exact ⟨c, hc, .untouched⟩
  · exact ⟨c, hc, .untouched⟩
  · refine streamStep_of_modify hc s.turn fun hk => ?_
    obtain rfl := selected hd hk
    exact advance_at_end (s := s) hrun hend ▸ .taken ⟨⟨rest, hin⟩, hk.symm, hrun, hheld⟩
  · refine streamStep_of_modify hc s.turn fun hk => ?_
    obtain rfl := selected hd hk
    exact advance_inside hrun hinside ▸ .taken ⟨⟨rest, hin⟩, hk.symm, hrun, hheld⟩
  · exact ⟨c, hc, .untouched⟩
  · exact ⟨c, hc, .untouched⟩
  · exact ⟨c, hc, .untouched⟩
  · obtain ⟨hlt, -⟩ := List.getElem?_eq_some_iff.1 hc
    exact ⟨c, (List.getElem?_append_left hlt).trans hc, .untouched⟩
  · exact ⟨c, hc, .untouched⟩
  · rw [← modify_eq_set hd fun d => { d with abandoned := true }]
    exact streamStep_of_modify hc j fun _ => .abandoned
  · rw [← modify_eq_set hd fun d => { d with buf := d.buf.write i b }]
    exact streamStep_of_modify hc j fun _ => .written _

/-- Only a take moves a stream; and no step gives an abandoned stream back. -/
theorem StreamStep.unmoved {s : State} {k : Nat} {c c' : StreamCtx} (h : StreamStep s k c c') (hno : ¬TakenFrom s k c) :
    c'.out = c.out ∧ c'.offset = c.offset ∧ c'.phase = c.phase ∧ (c.abandoned = true → c'.abandoned = true) := by
  cases h with
  | untouched => exact ⟨rfl, rfl, rfl, id⟩
  | taken h => exact absurd h hno
  | abandoned => exact ⟨rfl, rfl, rfl, fun _ => rfl⟩
  | written => exact ⟨rfl, rfl, rfl, id⟩

theorem StreamStep.grows {s : State} {k : Nat} {c c' : StreamCtx} (h : StreamStep s k c c') :
    c.offset ≤ c'.offset ∧ (c'.out = c.out ∨ ∃ e, c'.out = c.out ++ [e]) := by
  cases h with
  | untouched => exact ⟨Nat.le_refl _, .inl rfl⟩
  | taken => exact ⟨offset_le_advance, advance_out⟩
  | abandoned => exact ⟨Nat.le_refl _, .inl rfl⟩
  | written => exact ⟨Nat.le_refl _, .inl rfl⟩

/-! ### The host's actions on a stream -/

section Actions
variable {s : State} {k : Nat} {c : StreamCtx} {rest : List HostInput}

theorem step_of_take (h : s.inputs = .take :: rest) : step s = sequencerStep s := by
  simp only [step, h]

theorem step_of_resume (h : s.inputs = .resume k :: rest) : step s = resumeStream s k := by
  simp only [step, h]

theorem step_of_abandon (h : s.inputs = .abandon k :: rest) : step s = abandonStream s k := by
  simp only [step, h]

theorem whenTakable_of_error (h : c.phase = .endedByError) (r : Result) :
    c.whenTakable r = .refused .resumeAfterError := if_pos h

theorem whenTakable_of_open (hph : c.phase ≠ .endedByError) (hheld : c.abandoned = false) (r : Result) :
    c.whenTakable r = r := by
  rw [StreamCtx.whenTakable, if_neg hph, if_neg (ne_true_of_eq_false hheld)]

theorem resumeStream_eq (hc : s.streams[k]? = some c) :
    resumeStream s k = c.whenTakable (.next { s with turn := k, inputs := s.inputs.tail }) := by
  simp only [resumeStream, hc]

theorem sequencerStep_eq (hc : s.streams[s.turn]? = some c) :
    sequencerStep s = c.whenTakable (if c.phase = .endedAtEnd then .next s.popInput
      else if c.offset = c.buf.len then .next (s.updateCurrent StreamCtx.finish).popInput
      else serveDecode s c.buf c.offset) := by
  simp only [sequencerStep, State.current, hc]

theorem abandonStream_eq (hc : s.streams[k]? = some c) :
    abandonStream s k =
      .next { s with streams := s.streams.set k { c with abandoned := true }, inputs := s.inputs.tail } := by
  simp only [abandonStream, hc, modify_eq_set hc]

/-- At the end of the buffer the first take ends the stream; no decode is served, so `ready` does not matter. -/
theorem step_take_at_end (hin : s.inputs = .take :: rest) (hc : s.streams[s.turn]? = some c) (hrun : c.phase = .running)
    (hheld : c.abandoned = false) (hend : c.offset = c.buf.len) :
    step s = .next { s with inputs := rest, streams := s.streams.set s.turn c.finish } := by
  have hne {p : StreamPhase} (hp : .running ≠ p) : c.phase ≠ p := hrun ▸ hp
  rw [step_of_take hin, sequencerStep_eq hc, whenTakable_of_open (hne (by decide)) hheld, if_neg (hne (by decide)),
    if_pos hend, State.popInput, State.updateCurrent, modify_eq_set hc, hin]
  rfl

end Actions

/-- Settles O37: an open stream passes the test of `whenTakable`. -/
theorem resumeSelectsTheStream : Obligations.ResumeSelectsTheStream := by
  intro s k c rest hin hc hph hheld
  rw [step_of_resume hin, resumeStream_eq hc, whenTakable_of_open hph hheld, hin, List.tail_cons]

/-- Settles O31: the end, and the two responses of the decode at the offset. -/
theorem sequencerStepDoesOneOfThree : Obligations.SequencerStepDoesOneOfThree := by
  intro s c rest hready hin hc hrun hheld
  have hserve (hinside : c.offset ≠ c.buf.len) : StreamServes s c rest := ⟨hready, hin, hc, hrun, hheld, hinside⟩
  refine ⟨step_take_at_end hin hc hrun hheld, fun hinside v n hok => ?_, fun hinside e herr => ?_⟩
  · rw [step_stream (hserve hinside), hok, respond_ok_stream (hserve hinside)]
  · rw [step_stream (hserve hinside), herr, respond_err_stream (hserve hinside)]

/-- Settles O35: a fresh stream over an empty buffer is at its end. -/
theorem emptyBufferEndsAtOnce : Obligations.EmptyBufferEndsAtOnce := by
  intro s buf rest hin hlen hc
  exact step_take_at_end hin hc rfl rfl hlen.symm

/-! ### Ended and abandoned streams, and streams that nothing is taken from -/

/-- Settles O36: the sequencer's step is only of running streams, and going on with an ended one is refused. -/
theorem errorEndsTheStreamForGood : Obligations.ErrorEndsTheStreamForGood := by
  refine ⟨fun s t k c hc herr h => ?_, fun s k c rest hc herr hin => ?_, fun s c rest hc herr hin => ?_⟩
  · obtain ⟨c', hc', hstep⟩ := step_streamStep h hc
    have hno : ¬TakenFrom s k c := fun h => by cases herr.symm.trans h.running
    obtain ⟨hout, hoff, hph, -⟩ := hstep.unmoved hno
    exact ⟨c', hc', hph.trans herr, hout, hoff⟩
  · rw [step_of_resume hin, resumeStream_eq hc, whenTakable_of_error herr]
  · rw [step_of_take hin, sequencerStep_eq hc, whenTakable_of_error herr]

/-- Settles O38: only the sequencer's step touches elements, offset or state, where the host takes from the stream
selected. -/
theorem elementsComeOutOnlyAsTaken : Obligations.ElementsComeOutOnlyAsTaken := by
  intro s t k c h hc
  obtain ⟨c', hc', hstep⟩ := step_streamStep h hc
  refine ⟨c', hc', fun hnot => ?_, hstep.grows⟩
  have hno : ¬TakenFrom s k c := fun ⟨⟨rest, hin⟩, hk, _, _⟩ => hnot.elim (fun h => h rest hin) (fun h => h hk)
  obtain ⟨hout, hoff, hph, -⟩ := hstep.unmoved hno
  exact ⟨hout, hoff, hph⟩

/-- Settles O39: the sequencer's step is only of streams that are not abandoned. -/
theorem abandonedStreamStaysAsItIs : Obligations.AbandonedStreamStaysAsItIs := by
  refine ⟨fun s k c rest hin hc => ?_, fun s t k c hc hab h => ?_, fun s k i b c rest hin hc hab hi => ?_⟩
  · rw [step_of_abandon hin, abandonStream_eq hc, hin, List.tail_cons]
  · obtain ⟨c', hc', hstep⟩ := step_streamStep h hc
    have hno : ¬TakenFrom s k c := fun h => by cases hab.symm.trans h.held
    obtain ⟨hout, hoff, hph, hstays⟩ := hstep.unmoved hno
    exact ⟨c', hc', hstays hab, hout, hoff, hph⟩
  · exact ⟨_, (step_of_changeByte hin).trans (changeByte_of_released hc hi (.inr hab))⟩

end Sys2Proof.Proofs
end

section
/-! PROOFS. A take of an open stream, as one step of the sequencer's function of the stream (43_stream_driver R191), and
from it the independence of streams (R198, 10_state R36). -/

namespace Sys2Proof.Proofs

open Machine Safety Laws

/-- From `s` to `t` the stream at `k` made one step of its own and stands selected; the queue is `rest`, and the ROMs, the
other streams and the responses are as they were. -/
structure Advanced (s t : State) (k : Nat) (rest : List HostInput) : Prop where
  streams : t.streams = s.streams.modify k (advance s)
  turn : t.turn = k
  inputs : t.inputs = rest
  ready : t.ready = s.ready
  responses : t.responses = s.responses
  advance_eq : advance t = advance s

section Advanced
variable {s t : State} {k : Nat} {rest : List HostInput} (h : Advanced s t k rest)
include h

theorem Advanced.streamAt {c : StreamCtx} (hc : s.streams[k]? = some c) : t.streams[k]? = some (advance s c) := by
  rw [h.streams, getElem?_modify_of_some hc, if_pos rfl]

theorem Advanced.streamAt_other {j : Nat} (hj : j ≠ k) : t.streams[j]? = s.streams[j]? := by
  rw [h.streams, List.getElem?_modify_ne _ _ hj.symm]

end Advanced

/-- The host may go on with the stream at `k`. -/
def Takable (streams : List StreamCtx) (k : Nat) : Prop :=
  ∃ c, streams[k]? = some c ∧ c.phase ≠ .endedByError ∧ c.abandoned = false

section Take
variable {s : State} {c : StreamCtx} {rest : List HostInput}

/-- A take past the end changes only the queue. -/
theorem step_take_past_end (hin : s.inputs = .take :: rest) (hc : s.streams[s.turn]? = some c)
    (hended : c.phase = .endedAtEnd) (hheld : c.abandoned = false) : step s = .next { s with inputs := rest } := by
  have hph : c.phase ≠ .endedByError := by rw [hended]; decide
  rw [step_of_take hin, sequencerStep_eq hc, whenTakable_of_open hph hheld, if_pos hended, State.popInput, hin,
    List.tail_cons]

/-- Inside the buffer the step emits the response of the decode, a `Line` or an `Error`. -/
theorem step_take_inside (h : StreamServes s c rest) :
    step s = .next { s with latches := none, inputs := rest, streams := s.streams.set s.turn (advance s c) } := by
  rw [step_stream h, advance_inside h.2.2.2.1 h.2.2.2.2.2]
  rcases Engine.decode s.fmtRom s.regRom s.eaRom c.buf c.offset with ⟨v, n⟩ | e
  · exact respond_ok_stream h v n
  · exact respond_err_stream h e

/-- A take of an open stream answers, and is the stream's own step. -/
theorem step_take (hready : s.ready = true) (hin : s.inputs = .take :: rest) (hopen : Takable s.streams s.turn) :
    ∃ t, step s = .next t ∧ Advanced s t s.turn rest := by
  obtain ⟨c, hc, hph, hheld⟩ := hopen
  have hset : s.streams.modify s.turn (advance s) = s.streams.set s.turn (advance s c) := modify_eq_set hc _
  rcases hphase : c.phase with _ | _ | _
  case endedByError => exact absurd hphase hph
  case running =>
    by_cases hend : c.offset = c.buf.len
    · rw [advance_at_end hphase hend] at hset
      exact ⟨_, step_take_at_end hin hc hphase hheld hend, hset.symm, rfl, rfl, rfl, rfl, rfl⟩
    · exact ⟨_, step_take_inside ⟨hready, hin, hc, hphase, hheld, hend⟩, hset.symm, rfl, rfl, rfl, rfl, rfl⟩
  case endedAtEnd =>
    have hsame : advance s c = c := advance_of_ended (by rw [hphase]; decide)
    have hkeep : s.streams.set s.turn c = s.streams := (modify_eq_set hc id).symm.trans (List.modify_id ..)
    rw [hsame, hkeep] at hset
    exact ⟨_, step_take_past_end hin hc hphase hheld, hset.symm, rfl, rfl, rfl, rfl, rfl⟩

end Take

/-- Settles O45: both steps make the sequencer's step of the same stream, with the same ROMs. -/
theorem streamsAreIndependent : Obligations.StreamsAreIndependent := by
  intro s₁ s₂ c rest₁ rest₂ hready₁ hready₂ hin₁ hin₂ hfmt hreg hea hc₁ hc₂ hph hheld
  obtain ⟨t₁, hstep₁, hadv₁⟩ := step_take hready₁ hin₁ ⟨c, hc₁, hph, hheld⟩
  obtain ⟨t₂, hstep₂, hadv₂⟩ := step_take hready₂ hin₂ ⟨c, hc₂, hph, hheld⟩
  refine ⟨t₁, t₂, advance s₁ c, hstep₁, hstep₂, hadv₁.streamAt hc₁, ?_, fun k => hadv₁.streamAt_other,
    fun k => hadv₂.streamAt_other⟩
  rw [hadv₂.streamAt hc₂, advance_congr hfmt hreg hea]

end Sys2Proof.Proofs
end

section
/-! PROOFS. Every stream ends: a `Line` is at least one byte long, so the takes outrun the buffer (43_stream_driver
R193). -/

namespace Sys2Proof.Proofs

open Machine Safety Laws

/-! ### What elements that lie end to end can be -/

/-- What lies end to end is `Line`s, each of which takes at least one byte of the way, and then at most one error. -/
theorem lines_then_error_of_tileEnd {es : List Element} {start fin : Nat} (h : tileEnd start es = some fin) :
    ∃ lines last, es = lines ++ last ∧ (∀ e ∈ lines, Element.isError e = false) ∧ start + lines.length ≤ fin ∧
      (last = [] ∨ ∃ e, last = [.error e]) := by
  induction start, es using tileEnd.induct with
  | case1 start => exact ⟨[], [], rfl, by simp, (Option.some.inj h).le, .inl rfl⟩
  | case2 start off i n es hline ih =>
    rw [tileEnd, if_pos hline] at h
    obtain ⟨lines, last, rfl, hlines, hle, hlast⟩ := ih h
    refine ⟨.line off i n :: lines, last, rfl, List.forall_mem_cons.2 ⟨rfl, hlines⟩, ?_, hlast⟩
    rw [List.length_cons]
    omega
  | case3 start off i n es hline => rw [tileEnd, if_neg hline] at h; cases h
  | case4 e =>
    rw [tileEnd, if_pos rfl] at h
    exact ⟨[], [.error e], rfl, by simp, (Option.some.inj h).le, .inr ⟨e, rfl⟩⟩
  | case5 start e hoff => rw [tileEnd, if_neg hoff] at h; cases h
  | case6 => cases h

/-- Counted: at most a `Line` for each byte of the way, and at most one error, the last element. -/
theorem counts_of_tileEnd {es : List Element} {start fin : Nat} (h : tileEnd start es = some fin) :
    start + (es.filter fun e => !Element.isError e).length ≤ fin ∧ (es.filter Element.isError).length ≤ 1 ∧
      ∀ e ∈ es, Element.isError e = true → es.getLast? = some e := by
  obtain ⟨lines, last, rfl, hlines, hle, hlast⟩ := lines_then_error_of_tileEnd h
  have hkept : (lines.filter fun e => !Element.isError e) = lines :=
    List.filter_eq_self.2 fun e he => by rw [hlines e he]; rfl
  have hdropped : lines.filter Element.isError = [] :=
    List.filter_eq_nil_iff.2 fun e he => ne_true_of_eq_false (hlines e he)
  have hnot {e : Element} (herr : Element.isError e = true) : e ∉ lines := fun he => by
    cases (hlines e he).symm.trans herr
  rcases hlast with rfl | ⟨e', rfl⟩
  · rw [List.append_nil, hkept, hdropped]
    exact ⟨hle, Nat.zero_le _, fun e he herr => absurd he (hnot herr)⟩
  · rw [List.filter_append, List.filter_append, hkept, hdropped]
    refine ⟨by simpa [Element.isError] using hle, Nat.le_refl _, fun e he herr => ?_⟩
    rcases List.mem_append.1 he with he | he
    · exact absurd he (hnot herr)
    · rw [List.getLast?_concat, List.mem_singleton.1 he]

/-! ### The run to the end -/

/-- A run makes its first step and then the others. -/
theorem run_succ_eq_next {M : Host.Core} {k : Nat} {s t : M.State} :
    M.run (k + 1) s = .next t ↔ ∃ u, M.step s = .next u ∧ M.run k u = .next t := by
  rw [Host.Core.run]
  cases M.step s <;> simp

/-- `c'` is the stream `c` after its end: it has emitted `es`, which lie end to end from the offset of `c` to that of `c'`,
inside the buffer. -/
structure EndsWith (c : StreamCtx) (es : List Element) (c' : StreamCtx) : Prop where
  buf : c'.buf = c.buf
  ended : c'.phase ≠ .running
  inBuffer : c'.offset ≤ c.buf.len
  out : c'.out = c.out ++ es
  tiles : tileEnd c.offset es = some c'.offset

section EndsWith
variable {c c' : StreamCtx} {es : List Element}

theorem endsWith_finish (hend : c.offset = c.buf.len) : EndsWith c [] c.finish where
  buf := rfl
  ended := by rw [finish_phase]; decide
  inBuffer := hend.le
  out := by rw [finish_out, List.append_nil]
  tiles := rfl

theorem endsWith_emit_err {e : DecodeError} (he : e.offset = c.offset) (hle : c.offset ≤ c.buf.len) :
    EndsWith c [.error e] (c.emit (.err e)) where
  buf := rfl
  ended := by rw [emit_err_phase]; decide
  inBuffer := hle
  out := rfl
  tiles := if_pos he

theorem EndsWith.after_line {i : Decoded} {n : Nat} (hn : 1 ≤ n) (h : EndsWith (c.emit (.ok i n)) es c') :
    EndsWith c (.line c.offset i n :: es) c' where
  buf := h.buf
  ended := h.ended
  inBuffer := h.inBuffer
  out := by rw [h.out, emit_ok_out, List.append_assoc, List.singleton_append]
  tiles := by rw [tileEnd, if_pos ⟨rfl, hn⟩]; exact h.tiles

end EndsWith

/-- From a running stream inside its buffer, more takes than bytes left end the stream. -/
theorem run_takes_to_end {n : Nat} {rest : List HostInput} {s : State} {c : StreamCtx} (hready : s.ready = true)
    (hin : s.inputs = List.replicate n .take ++ rest) (hc : s.streams[s.turn]? = some c) (hrun : c.phase = .running)
    (hheld : c.abandoned = false) (hle : c.offset ≤ c.buf.len) (hmore : c.buf.len < c.offset + n) :
    ∃ k t c' es, k ≤ n ∧ Host.Core.run Sys2Proof.core k s = .next t ∧ t.streams[s.turn]? = some c' ∧
      EndsWith c es c' := by
  induction n generalizing s c with
  | zero => omega
  | succ n ih =>
    obtain ⟨t, hstep, hadv⟩ := step_take hready hin ⟨c, hc, by rw [hrun]; decide, hheld⟩
    have hone : Host.Core.run Sys2Proof.core 1 s = .next t := run_succ_eq_next.2 ⟨t, hstep, rfl⟩
    have hat := hadv.streamAt hc
    by_cases hend : c.offset = c.buf.len
    · rw [advance_at_end hrun hend] at hat
      exact ⟨1, t, _, _, Nat.le_add_left .., hone, hat, endsWith_finish hend⟩
    · rw [advance_inside hrun hend] at hat
      rcases hr : Engine.decode s.fmtRom s.regRom s.eaRom c.buf c.offset with ⟨i, m⟩ | e <;> rw [hr] at hat
      · obtain ⟨hm, -, hlen⟩ := decode_ok_bound hr
        have hmore' : c.buf.len < c.offset + m + n := by omega
        obtain ⟨k, u, c', es, hk, hu, hc', hends⟩ :=
          ih (c := c.emit (.ok i m)) (hadv.ready.trans hready) hadv.inputs (hadv.turn ▸ hat) hrun hheld hlen hmore'
        exact ⟨k + 1, u, c', _, Nat.succ_le_succ hk, run_succ_eq_next.2 ⟨t, hstep, hu⟩, hadv.turn ▸ hc',
          hends.after_line hm⟩
      · exact ⟨1, t, _, _, Nat.le_add_left .., hone, hat, endsWith_emit_err (decode_err_offset hr) hle⟩

/-- Settles O44: a fresh stream is at offset 0, so `len + 1` takes are more than the bytes left. -/
theorem everyStreamTerminates : Obligations.EveryStreamTerminates := by
  intro s buf rest hready hin hc
  obtain ⟨k, t, c, es, hk, ht, hc', hends⟩ :=
    run_takes_to_end hready hin hc rfl rfl (Nat.zero_le _) (by rw [Nat.zero_add]; exact Nat.lt_succ_self _)
  obtain ⟨hlines, herrors, hlast⟩ := counts_of_tileEnd hends.tiles
  rw [Nat.zero_add] at hlines
  refine ⟨k, t, c, hk, ht, hc', hends.buf, hends.ended, ?_⟩
  rw [hends.out, List.nil_append]
  exact ⟨hlines.trans hends.inBuffer, herrors, hlast⟩

end Sys2Proof.Proofs
end

section
/-! PROOFS. Streams run interleaved in any order (43_stream_driver R191, R196, R198): a run over `takes ks` is, on the
streams, one step of its own for each stream that the list names, and those steps change places. -/

namespace Sys2Proof.Proofs

open Machine Safety Laws

/-! ### The run on the streams alone -/

/-- From `l` to `l'` each stream of the list `ks`, in its order, is open when its turn comes, and makes its step `f`. -/
inductive TakeRun (f : StreamCtx → StreamCtx) : List StreamCtx → List Nat → List StreamCtx → Prop where
  | nil (l : List StreamCtx) : TakeRun f l [] l
  | cons {l l' : List StreamCtx} {k : Nat} {ks : List Nat} (hopen : Takable l k) (hrest : TakeRun f (l.modify k f) ks l') :
      TakeRun f l (k :: ks) l'

section TakeRun
variable {f : StreamCtx → StreamCtx} {l l' : List StreamCtx}

theorem TakeRun.length_eq {ks : List Nat} (h : TakeRun f l ks l') : l'.length = l.length := by
  induction h with
  | nil => rfl
  | cons _ _ ih => rw [ih, List.length_modify]

/-- Each stream has made as many of its own steps as the list names it. -/
theorem TakeRun.streamAt {ks : List Nat} (h : TakeRun f l ks l') {k : Nat} {c : StreamCtx} (hc : l[k]? = some c) :
    l'[k]? = some (f^[ks.count k] c) := by
  induction h generalizing c with
  | nil => exact hc
  | @cons l l' j ks hopen hrest ih =>
    rw [ih (getElem?_modify_of_some hc j f)]
    split
    · next hj => rw [hj, List.count_cons_self, Function.iterate_succ_apply]
    · next hj => rw [List.count_cons_of_ne hj]

theorem takable_modify_of_ne {j k : Nat} (h : j ≠ k) : Takable (l.modify j f) k ↔ Takable l k := by
  rw [Takable, Takable, List.getElem?_modify_ne _ _ h]

/-- Two takes in a row may change places. -/
theorem TakeRun.swap {j k : Nat} {ks : List Nat} (h : TakeRun f l (k :: j :: ks) l') : TakeRun f l (j :: k :: ks) l' := by
  rcases eq_or_ne j k with rfl | hne
  · exact h
  · obtain _ | ⟨hk, _ | ⟨hj, hrest⟩⟩ := h
    rw [List.modify_modify_ne _ _ _ hne.symm] at hrest
    exact .cons ((takable_modify_of_ne hne.symm).1 hj) (.cons ((takable_modify_of_ne hne).2 hk) hrest)

theorem TakeRun.of_perm {ks ks' : List Nat} (hperm : ks.Perm ks') (h : TakeRun f l ks l') : TakeRun f l ks' l' := by
  induction hperm generalizing l with
  | nil => exact h
  | cons k _ ih => cases h with | cons hopen hrest => exact .cons hopen (ih hrest)
  | swap => exact h.swap
  | trans _ _ ih₁ ih₂ => exact ih₂ (ih₁ h)

end TakeRun

/-! ### The run of the block -/

section Run
variable {s : State} {k : Nat} {rest : List HostInput}

theorem takable_of_resume {t : State} (hin : s.inputs = .resume k :: rest) (h : step s = .next t) :
    Takable s.streams k := by
  rw [step_of_resume hin] at h
  rcases hc : s.streams[k]? with _ | c
  · simp only [resumeStream, hc, reduceCtorEq] at h
  · rw [resumeStream_eq hc] at h
    obtain ⟨hph, hheld, -⟩ := whenTakable_next h
    exact ⟨c, hc, hph, hheld⟩

/-- Selecting an open stream and taking from it is that stream's own step, whichever stream was selected before. -/
theorem resume_take (hready : s.ready = true) (hin : s.inputs = .resume k :: .take :: rest) (hopen : Takable s.streams k) :
    ∃ u t, step s = .next u ∧ step u = .next t ∧ Advanced s t k rest := by
  obtain ⟨c, hc, hph, hheld⟩ := hopen
  obtain ⟨t, ht, hadv⟩ :=
    step_take (s := { s with turn := k, inputs := .take :: rest }) hready rfl ⟨c, hc, hph, hheld⟩
  have hsame : advance { s with turn := k, inputs := .take :: rest } = advance s := advance_congr rfl rfl rfl
  refine ⟨_, t, resumeSelectsTheStream s k c _ hin hc hph hheld, ht, ?_, hadv.turn, hadv.inputs, hadv.ready,
    hadv.responses, hadv.advance_eq.trans hsame⟩
  rw [hadv.streams, hsame]

theorem run_two_succ {n : Nat} {t : State} :
    Host.Core.run Sys2Proof.core (2 * (n + 1)) s = .next t ↔
      ∃ u v, step s = .next u ∧ step u = .next v ∧ Host.Core.run Sys2Proof.core (2 * n) v = .next t := by
  constructor
  · intro h
    obtain ⟨u, hu, h⟩ := run_succ_eq_next.1 h
    obtain ⟨v, hv, h⟩ := run_succ_eq_next.1 h
    exact ⟨u, v, hu, hv, h⟩
  · rintro ⟨u, v, hu, hv, h⟩
    exact run_succ_eq_next.2 ⟨u, hu, run_succ_eq_next.2 ⟨v, hv, h⟩⟩

/-- A run over `takes ks` that answers is the run on the streams, and touches no response. -/
theorem takeRun_of_run {ks : List Nat} {t : State} (hready : s.ready = true) (hin : s.inputs = takes ks ++ rest)
    (h : Host.Core.run Sys2Proof.core (2 * ks.length) s = .next t) :
    TakeRun (advance s) s.streams ks t.streams ∧ t.inputs = rest ∧ t.responses = s.responses := by
  induction ks generalizing s with
  | nil =>
    cases h
    exact ⟨.nil _, hin, rfl⟩
  | cons k ks ih =>
    obtain ⟨u, v, hu, hv, h⟩ := run_two_succ.1 h
    have hopen := takable_of_resume hin hu
    obtain ⟨u', v', hu', hv', hadv⟩ := resume_take hready hin hopen
    cases hu.symm.trans hu'
    cases hv.symm.trans hv'
    obtain ⟨hrun, hinputs, hresp⟩ := ih (hadv.ready.trans hready) hadv.inputs h
    rw [hadv.advance_eq, hadv.streams] at hrun
    exact ⟨.cons hopen hrun, hinputs, hresp.trans hadv.responses⟩

/-- The block answers a run over `takes ks` whenever the streams alone can make it. -/
theorem run_of_takeRun {ks : List Nat} {l : List StreamCtx} (hready : s.ready = true)
    (hin : s.inputs = takes ks ++ rest) (h : TakeRun (advance s) s.streams ks l) :
    ∃ t, Host.Core.run Sys2Proof.core (2 * ks.length) s = .next t ∧ t.streams = l := by
  induction ks generalizing s with
  | nil =>
    cases h
    exact ⟨s, rfl, rfl⟩
  | cons k ks ih =>
    obtain _ | ⟨hopen, hrest⟩ := h
    obtain ⟨u, v, hu, hv, hadv⟩ := resume_take hready hin hopen
    rw [← hadv.streams, ← hadv.advance_eq] at hrest
    obtain ⟨t, ht, hl⟩ := ih (hadv.ready.trans hready) hadv.inputs hrest
    exact ⟨t, run_two_succ.2 ⟨u, v, hu, hv, ht⟩, hl⟩

end Run

/-- Settles O46: a run that answers is the run on the streams, where the steps of different streams change places. -/
theorem interleavedStreamsRunAsAlone : Obligations.InterleavedStreamsRunAsAlone := by
  constructor
  · intro s t ks rest hready hin h
    obtain ⟨hrun, hinputs, hresp⟩ := takeRun_of_run hready hin h
    exact ⟨hinputs, hresp, hrun.length_eq, fun k c hc => hrun.streamAt hc⟩
  · intro s t ks ks' rest hready hin h hperm
    obtain ⟨hrun, -, -⟩ := takeRun_of_run hready hin h
    exact run_of_takeRun (s := { s with inputs := takes ks' ++ rest }) hready rfl (hrun.of_perm hperm.symm)

end Sys2Proof.Proofs
end

section
/-! PROOFS. How a stream comes to run: the host's request (43_stream_driver R190), and `withFetchWord` in its place
(log 2). -/

namespace Sys2Proof.Proofs

open Machine Safety Laws

theorem whenAdmitted_of_fits {s : State} {buf : Buffer} (hready : s.ready = true)
    (hlen : buf.len < 2 ^ s.params.offsetBits) (k : Result) : s.whenAdmitted buf k = k := by
  rw [State.whenAdmitted, if_pos hready, if_pos hlen]

/-- Settles O33: an admitted request opens `StreamCtx.start`. -/
theorem streamRequestStartsAtZero : Obligations.StreamRequestStartsAtZero := by
  intro s buf rest hready hin hlen
  rw [step_of_streamRequest hin, openStream, whenAdmitted_of_fits hready hlen, hin]
  rfl

/-- The bytes that a decode at 0 can read of a byte sequence laid out as a buffer. -/
theorem fetchBytes_ofBytes (bytes : List Byte) : fetchBytes (Buffer.ofBytes bytes) 0 = bytes.take 6 := by
  rw [fetchBytes, window_eq_map]
  refine List.ext_getElem (by simp) fun i hi hi' => ?_
  rw [List.length_take] at hi'
  simp [buffer_ofBytes_byte, (Nat.lt_min.1 hi').2]

theorem decodeTableWord_eq_some {nbits w : Nat} {i : Instr} :
    decodeTableWord nbits w = some i ↔ ∃ more, Decode.decode (wordBytes nbits w) = .ok (i, more) := by
  rw [decodeTableWord]
  rcases Decode.decode (wordBytes nbits w) with r | ⟨j, more⟩ <;> simp

theorem wordBytes_length (nbits w : Nat) : (wordBytes nbits w).length = 6 := by
  rw [wordBytes, List.length_map, List.length_range]

theorem streamServes_withFetchWord (s : State) (nbits w : Nat) :
    StreamServes (s.withFetchWord nbits w) (StreamCtx.start (Buffer.ofBytes (wordBytes nbits w))) [] :=
  ⟨rfl, rfl, List.getElem?_concat_length, rfl, rfl, by simp [StreamCtx.start, wordBytes_length]⟩

/-- Settles O29: the take of `withFetchWord` serves a decode of the word's six bytes with the default image. -/
theorem fetchWordRunsTheTableWord : Obligations.FetchWordRunsTheTableWord := by
  intro s nbits w i h
  obtain ⟨more, hdecode⟩ := decodeTableWord_eq_some.1 h
  have hserve := streamServes_withFetchWord s nbits w
  refine ((stepRunsTheDecodedInstruction _ rfl).1 _ _ hserve).1 i more ?_
  have hbytes : fetchBytes (Buffer.ofBytes (wordBytes nbits w)) 0 = wordBytes nbits w :=
    (fetchBytes_ofBytes _).trans (List.take_of_length_le (wordBytes_length nbits w).le)
  exact (congrArg Decode.decode hbytes).trans hdecode

end Sys2Proof.Proofs
end

section
/-! PROOFS. The texts of the reference renderer (44_renderer R205 to R211): numerals, immediates, memory operands, and the
width that no text shows. -/

namespace Sys2Proof.Proofs

open Machine Renderer

/-! A numeral is the numeral of the tenth and one more digit. -/

theorem digitsOnto_append (fuel n : Nat) (front tail : List Char) :
    digitsOnto fuel n (front ++ tail) = digitsOnto fuel n front ++ tail := by
  induction fuel generalizing n front with
  | zero => rfl
  | succ fuel ih =>
    rw [digitsOnto, digitsOnto]
    split
    · rfl
    · exact ih (n / 10) (digit n :: front)

/-- More fuel than the number changes nothing. -/
theorem digitsOnto_of_lt {fuel n : Nat} (h : n < fuel) (tail : List Char) : digitsOnto fuel n tail = decimal n ++ tail := by
  suffices enough : ∀ fuel' > n, digitsOnto fuel n tail = digitsOnto fuel' n tail by
    rw [enough (n + 1) n.lt_succ_self, decimal, ← digitsOnto_append, List.nil_append]
  induction fuel generalizing n tail with
  | zero => exact absurd h n.not_lt_zero
  | succ fuel ih =>
    intro fuel' h'
    obtain ⟨fuel', rfl⟩ := Nat.exists_eq_add_one_of_ne_zero (Nat.ne_zero_of_lt h')
    rw [digitsOnto, digitsOnto]
    split
    · rfl
    · exact ih (by omega) (digit n :: tail) fuel' (by omega)

theorem decimal_of_lt_ten {n : Nat} (h : n < 10) : decimal n = [digit n] := by
  rw [decimal, digitsOnto, if_pos h]

theorem decimal_of_ten_le {n : Nat} (h : 10 ≤ n) : decimal n = decimal (n / 10) ++ [digit n] := by
  rw [decimal, digitsOnto, if_neg (Nat.not_lt.2 h), digitsOnto_of_lt (by omega)]

/-- A property of numbers and texts that the digits have, and that one more digit keeps, holds of every numeral. -/
theorem decimal_induction {P : Nat → List Char → Prop} (one : ∀ n < 10, P n [digit n])
    (more : ∀ n ≥ 10, P (n / 10) (decimal (n / 10)) → P n (decimal (n / 10) ++ [digit n])) (n : Nat) :
    P n (decimal n) := by
  induction n using Nat.strongRecOn with
  | ind n ih =>
    rcases Nat.lt_or_ge n 10 with h | h
    · rw [decimal_of_lt_ten h]
      exact one n h
    · rw [decimal_of_ten_le h]
      exact more n h (ih (n / 10) (by omega))

/-! What a numeral's characters are and what it reads back as (R207). -/

theorem digit_toNat (n : Nat) : (digit n).toNat = 48 + n % 10 := by
  rw [digit, Char.toNat_ofNat, if_pos (Or.inl (by omega))]

theorem digit_ne_zero {n : Nat} (h : n ≠ 0) (hlt : n < 10) : digit n ≠ '0' := by
  intro heq
  have hcode : 48 + n % 10 = 48 := (digit_toNat n).symm.trans (congrArg Char.toNat heq)
  omega

theorem decimal_reads_back (n : Nat) : (decimal n).foldl (fun acc ch => 10 * acc + (ch.toNat - 48)) 0 = n := by
  induction n using decimal_induction with
  | one n h => simp [digit_toNat, Nat.mod_eq_of_lt h]
  | more n h ih =>
    rw [List.foldl_append, ih, List.foldl_cons, List.foldl_nil, digit_toNat]
    omega

theorem decimal_digits (n : Nat) : ∀ ch ∈ decimal n, 48 ≤ ch.toNat ∧ ch.toNat ≤ 57 := by
  have hdigit (n : Nat) : ∀ ch ∈ [digit n], 48 ≤ ch.toNat ∧ ch.toNat ≤ 57 := by
    rw [List.forall_mem_singleton, digit_toNat]
    omega
  induction n using decimal_induction with
  | one n h => exact hdigit n
  | more n h ih => exact List.forall_mem_append.2 ⟨ih, hdigit n⟩

theorem decimal_ne_nil (n : Nat) : decimal n ≠ [] := by
  induction n using decimal_induction with
  | one n h => exact List.cons_ne_nil _ _
  | more n h ih => exact List.append_ne_nil_of_left_ne_nil ih _

theorem decimal_head_ne_zero {n : Nat} : n ≠ 0 → (decimal n).head? ≠ some '0' := by
  induction n using decimal_induction with
  | one n h => exact fun hn heq => digit_ne_zero hn h (Option.some.inj heq)
  | more n h ih =>
    intro _
    rw [List.head?_append_of_ne_nil _ (decimal_ne_nil _)]
    exact ih (by omega)

/-! The signs of immediates and displacements. -/

theorem decimalInt_natCast (n : Nat) : decimalInt n = decimal n := by
  rw [decimalInt, if_neg (by omega), Int.natAbs_natCast]

theorem decimalInt_neg {n : Nat} (h : 0 < n) : decimalInt (-(n : Int)) = '-' :: decimal n := by
  rw [decimalInt, if_pos (by omega), Int.natAbs_neg, Int.natAbs_natCast]

theorem dispText_zero (width : DispWidth) : dispText (some { value := 0, width := width }) = [] := rfl

theorem dispText_pos {n : Nat} (h : 0 < n) (width : DispWidth) :
    dispText (some { value := n, width := width }) = '+' :: decimal n := by
  rw [dispText, if_pos (by simpa using h), Int.natAbs_natCast]

theorem dispText_neg {n : Nat} (h : 0 < n) (width : DispWidth) :
    dispText (some { value := -(n : Int), width := width }) = '-' :: decimal n := by
  rw [dispText, if_neg (by simp), if_pos (by simpa using h), Int.natAbs_neg, Int.natAbs_natCast]

/-- Settles O56: by induction over the digits of the numeral, and by the sign of the immediate. -/
theorem numeralsReadBack : Obligations.NumeralsReadBack :=
  ⟨fun n => ⟨decimal_reads_back n, decimal_digits n, decimal_head_ne_zero⟩, rfl, decimalInt_natCast,
    fun _ h => decimalInt_neg h⟩

/-- Settles O57: `render` does not read `w`, and one decode and one text for each of the two encodings. -/
theorem textDoesNotTellTheWidth : Obligations.TextDoesNotTellTheWidth := by
  refine ⟨fun i w => rfl, { mnem := .mov, op0 := .mem (.based [.bp, .di] none), op1 := .imm 7, w := false },
    { mnem := .mov, op0 := .mem (.based [.bp, .di] none), op1 := .imm 7, w := true }, ?_⟩
  decide

theorem operandText_based {bases : List RegName} {names : List Char} (h : joinBases bases = names) (disp : Option Disp) :
    operandText (.mem (.based bases disp)) = ['['] ++ names ++ dispText disp ++ [']'] := by
  subst h
  rfl

/-- Settles O58: one text in brackets for all base lists, and the displacement's term by its sign. -/
theorem memoryOperandText : Obligations.MemoryOperandText := by
  refine ⟨fun addr => rfl, fun bases names hbases => ?_⟩
  have hnames : joinBases bases = names := by
    obtain ⟨a, rfl, rfl⟩ | ⟨a, b, rfl, rfl⟩ := hbases
    · rfl
    · simp [joinBases]
  have htext := operandText_based hnames
  refine ⟨?_, fun width => ⟨?_, fun n hn => ⟨?_, ?_⟩⟩⟩
  · simp [htext, dispText]
  · simp [htext, dispText_zero]
  · simp [htext, dispText_pos hn]
  · simp [htext, dispText_neg hn]

end Sys2Proof.Proofs
end

section
/-! PROOFS. Truncations (60_exceptions R232, R235): what a truncation records, what the operands of an entry answer in the
bytes still missing, the order of the checks of a decode with the default image, and the idle block (R247). -/

namespace Sys2Proof.Proofs

open Machine Laws

/-! ### What a truncation records -/

/-- The bytes available are the truncated difference, which is 0 past the end. -/
theorem available_eq_sub (len start : Nat) : (if start > len then 0 else len - start) = len - start := by
  split_ifs with h
  · exact (Nat.sub_eq_zero_of_le h.le).symm
  · rfl

theorem truncated_eq (len start cur n : Nat) :
    truncated len start cur n =
      { code := .truncatedInstruction, offset := start, bytesAvailable := len - start, bytesRequired := cur + n - start } := by
  rw [truncated, DecodeError.mk.injEq]
  refine ⟨rfl, rfl, ?_, rfl⟩
  split_ifs with h
  · rfl
  · exact (Nat.sub_eq_zero_of_le (Nat.le_of_not_le h)).symm

/-- A read of `n` bytes that begins `a` bytes after the start requires `a + n`. -/
theorem truncated_offset_add (len off a n : Nat) :
    truncated len off (off + a) n =
      { code := .truncatedInstruction, offset := off, bytesAvailable := len - off, bytesRequired := a + n } := by
  rw [truncated_eq, Nat.add_assoc, Nat.add_sub_cancel_left]

theorem decode_past_end {buf : Buffer} {off : Nat} (h : buf.len ≤ off) (fmt : List FormatEntry) (regs : RegRom) (ea : EaRom) :
    Engine.decode fmt regs ea buf off =
      .err { code := .truncatedInstruction, offset := off, bytesAvailable := buf.len - off, bytesRequired := 1 } := by
  rw [engine_decode_eq, if_neg (Nat.not_lt.2 h), truncated_eq, Nat.add_sub_cancel_left]

/-! ### Which check of an entry fails -/

/-- The value of an entry whose operands stand at `cur₁` and at `cur₂` (R128, R129). -/
def valueAt (regs : RegRom) (ea : EaRom) (buf : Buffer) (F : FormatEntry) (off : Nat) (reg : BitVec 3) (m : Byte)
    (cur₁ cur₂ : Nat) : Decoded :=
  let b := buf.byte off
  let opA := operandAt regs ea buf (latchFlag F.w b) (latchFlag F.s b) reg m cur₁ F.roles.1
  let opB := operandAt regs ea buf (latchFlag F.w b) (latchFlag F.s b) reg m cur₂ F.roles.2
  let ops := direction F.d F.roles (latchFlag F.d b) opA opB
  { mnem := F.mnem, op0 := ops.1, op1 := ops.2, w := latchFlag F.w b }

/-- The operands of an entry, `a` bytes after the start: the first role whose bytes are not all there is the truncation. -/
theorem rolesAt_eq_ite {buf : Buffer} {F : FormatEntry} {off a n₁ n₂ : Nat} {m : Byte} (hcur : off + a ≤ buf.len)
    (h₁ : roleLength (latchFlag F.w (buf.byte off)) (latchFlag F.s (buf.byte off)) m F.roles.1 = n₁)
    (h₂ : roleLength (latchFlag F.w (buf.byte off)) (latchFlag F.s (buf.byte off)) m F.roles.2 = n₂)
    (regs : RegRom) (ea : EaRom) (reg : BitVec 3) :
    rolesAt regs ea buf F off (off + a) reg m =
      if buf.len < off + (a + n₁) then .err (truncated buf.len off (off + a) n₁)
      else if buf.len < off + (a + n₁ + n₂) then .err (truncated buf.len off (off + (a + n₁)) n₂)
      else .ok (valueAt regs ea buf F off reg m (off + a) (off + (a + n₁))) (a + n₁ + n₂) := by
  unfold rolesAt
  rw [resolveAt_eq_ite hcur, h₁, Nat.add_assoc off]
  by_cases hfirst : off + (a + n₁) ≤ buf.len
  · rw [if_pos hfirst, if_neg (Nat.not_lt.2 hfirst)]
    dsimp only
    rw [resolveAt_eq_ite hfirst, h₂, Nat.add_assoc off]
    by_cases hsecond : off + (a + n₁ + n₂) ≤ buf.len
    · rw [if_pos hsecond, if_neg (Nat.not_lt.2 hsecond)]
      dsimp only
      rw [Nat.add_sub_cancel_left]
      rfl
    · rw [if_neg hsecond, if_pos (Nat.not_le.1 hsecond)]
  · rw [if_neg hfirst, if_pos (Nat.not_le.1 hfirst)]

/-- A truncation at the operands requires more than there is. -/
theorem rolesAt_err_required {buf : Buffer} {F : FormatEntry} {off a : Nat} {m : Byte} (hcur : off + a ≤ buf.len)
    {regs : RegRom} {ea : EaRom} {reg : BitVec 3} {e : DecodeError}
    (h : rolesAt regs ea buf F off (off + a) reg m = .err e) :
    ∃ c n, buf.len - off < c + n ∧ e = truncated buf.len off (off + c) n := by
  rw [rolesAt_eq_ite hcur rfl rfl] at h
  split_ifs at h with hfirst hsecond
  · cases h; exact ⟨_, _, by omega, rfl⟩
  · cases h; exact ⟨_, _, by omega, rfl⟩

/-- The errors of an entry: the extension, the ModRM byte, and the operands. -/
theorem entryAt_err_cases {buf : Buffer} {F : FormatEntry} {off : Nat} (hlt : off < buf.len) {regs : RegRom} {ea : EaRom}
    {e : DecodeError} (h : entryAt regs ea buf F off = .err e) :
    e = unknownOpcode off ∨ ∃ c n, buf.len - off < c + n ∧ e = truncated buf.len off (off + c) n := by
  unfold entryAt at h
  split_ifs at h with hmodrm h1 hext
  · cases h; exact .inl rfl
  · exact .inr (rolesAt_err_required h1 h)
  · cases h; exact .inr ⟨1, 1, by omega, rfl⟩
  · exact .inr (rolesAt_err_required hlt h)

/-- Every truncation of a decode requires more than there is (R232). -/
theorem decode_err_cases {fmt : List FormatEntry} {regs : RegRom} {ea : EaRom} {buf : Buffer} {off : Nat} {e : DecodeError}
    (h : Engine.decode fmt regs ea buf off = .err e) :
    e = unknownOpcode off ∨ ∃ c n, buf.len - off < c + n ∧ e = truncated buf.len off (off + c) n := by
  rw [engine_decode_eq] at h
  split_ifs at h with hlt
  · split at h
    · cases h; exact .inl rfl
    · exact entryAt_err_cases hlt h
  · cases h; exact .inr ⟨0, 1, by omega, rfl⟩

/-- Settles O52: a read is the truncation it records, and a decode's truncations are those of its reads. -/
theorem truncationRecordsThreeFields : Obligations.TruncationRecordsThreeFields := by
  unfold Obligations.TruncationRecordsThreeFields
  simp only [available_eq_sub]
  refine ⟨fun buf start cur => ?_, fun buf start cur => ?_, fun fmt regs ea buf off e h hcode => ?_,
    fun fmt regs ea buf off hend => ?_⟩
  · rw [Engine.readByte, truncated_eq]
  · rw [Engine.readHalf, truncated_eq]; rfl
  · obtain rfl | ⟨c, n, hrequired, rfl⟩ := decode_err_cases h
    · cases hcode
    · rw [truncated_offset_add]
      exact ⟨rfl, rfl, hrequired⟩
  · rw [decode_past_end hend, Nat.sub_eq_zero_of_le hend]

/-! ### The checks of the default image -/

/-- The first role of a row reads the displacement, if there is one: only RM stands before the immediate. -/
theorem roleLength_row_first (row : Row) (w s : Bool) (m : Byte) :
    roleLength w s m (rowEntry row).roles.1 = if (rowEntry row).modrm then Engine.dispLength m else 0 := by
  cases row <;> rfl

/-- The second role of a row reads the immediate, if there is one. -/
theorem roleLength_row_second (row : Row) (b m : Byte) :
    roleLength (latchFlag (rowEntry row).w b) (latchFlag (rowEntry row).s b) m (rowEntry row).roles.2 =
      Engine.immLength (rowEntry row) b := by
  cases row <;> rfl

/-- The one opcode extension of the default image is 000. -/
theorem ext_row_differs (row : Row) (x : BitVec 3) :
    (∃ e, (rowEntry row).ext = some e ∧ x ≠ e) ↔ (rowEntry row).ext = some 0#3 ∧ x ≠ 0#3 := by
  cases row <;> simp [rowEntry]

theorem ext_row_of_no_modrm {row : Row} (h : ¬(rowEntry row).modrm = true) : (rowEntry row).ext = none := by
  revert h; cases row <;> simp [rowEntry]

theorem engine_decode_row {buf : Buffer} {off : Nat} {row : Row} (hlt : off < buf.len)
    (hrow : Decode.rowOfByte (buf.byte off) = some row) (regs : RegRom) (ea : EaRom) :
    Engine.decode defaultImage regs ea buf off = entryAt regs ea buf (rowEntry row) off := by
  rw [engine_decode_eq_elim, if_pos hlt, find?_defaultImage, hrow]; rfl

theorem engine_decode_no_row {buf : Buffer} {off : Nat} (hlt : off < buf.len)
    (hrow : Decode.rowOfByte (buf.byte off) = none) (regs : RegRom) (ea : EaRom) :
    Engine.decode defaultImage regs ea buf off = .err (unknownOpcode off) := by
  rw [engine_decode_eq_elim, if_pos hlt, find?_defaultImage, hrow]; rfl

/-- The two last checks of a row: the displacement ends at `before`, and the immediate follows it. -/
theorem rolesAt_row {buf : Buffer} {off a before : Nat} {row : Row} {m : Byte} (hcur : off + a ≤ buf.len)
    (hbefore : a + (if (rowEntry row).modrm then Engine.dispLength m else 0) = before) (regs : RegRom) (ea : EaRom)
    (reg : BitVec 3) :
    let r := rolesAt regs ea buf (rowEntry row) off (off + a) reg m
    let imm := Engine.immLength (rowEntry row) (buf.byte off)
    if buf.len < off + before then
      r = .err { code := .truncatedInstruction, offset := off, bytesAvailable := buf.len - off, bytesRequired := before }
    else if buf.len < off + before + imm then
      r = .err { code := .truncatedInstruction, offset := off, bytesAvailable := buf.len - off, bytesRequired := before + imm }
    else ∃ v, r = .ok v (before + imm) := by
  dsimp only
  rw [rolesAt_eq_ite hcur (roleLength_row_first ..) (roleLength_row_second ..), truncated_offset_add, truncated_offset_add,
    hbefore, Nat.add_assoc off before]
  split_ifs
  · rfl
  · rfl
  · exact ⟨_, rfl⟩

/-- Settles O54: the checks in their order; the two last are the truncations of the row's roles. -/
theorem firstFailedCheckIsReported : Obligations.FirstFailedCheckIsReported := by
  intro regs ea buf off
  dsimp only
  by_cases hend : buf.len ≤ off
  · rw [if_pos hend]
    exact decode_past_end hend _ regs ea
  rw [if_neg hend]
  have hlt := Nat.not_le.1 hend
  rcases hrow : Decode.rowOfByte (buf.byte off) with _ | row
  · exact engine_decode_no_row hlt hrow regs ea
  dsimp only
  rw [engine_decode_row hlt hrow, entryAt]
  by_cases hmodrm : (rowEntry row).modrm = true
  · simp only [hmodrm, if_true, true_and, ext_row_differs]
    by_cases hmissing : buf.len ≤ off + 1
    · rw [if_pos hmissing, if_neg (Nat.not_lt.2 hmissing), truncated_offset_add]
    rw [if_neg hmissing, if_pos (Nat.not_le.1 hmissing)]
    by_cases hext : (rowEntry row).ext = some 0#3 ∧ extract (buf.byte (off + 1)) 3 3 ≠ 0#3
    · rw [if_pos hext, if_pos hext]; rfl
    rw [if_neg hext, if_neg hext]
    exact rolesAt_row (Nat.not_le.1 hmissing) (by rw [if_pos hmodrm]) regs ea _
  · simp only [hmodrm, false_and, ext_row_of_no_modrm hmodrm, reduceCtorEq, if_false]
    exact rolesAt_row hlt (by rw [if_neg hmodrm]) regs ea _

/-! ### The idle block -/

/-- Settles O40: with no action pending the step has nothing to do. -/
theorem idleBlockHoldsItsState : Obligations.IdleBlockHoldsItsState := by
  intro s hin
  simp only [step, hin]

end Sys2Proof.Proofs
end

section
/-! PROOFS. Which formats raise which error (60_exceptions R233): the readers of the byte decoder only truncate, except
that the layout IM checks the opcode extension. -/

namespace Sys2Proof.Proofs

open Machine Decode

theorem map_eq_error {ε α β : Type} {x : Except ε α} {f : α → β} {e : ε} : x.map f = .error e ↔ x = .error e := by
  cases x <;> simp [Except.map]

theorem takeByte_ne_unknownOpcode (t : Nat) (bytes : List Byte) : takeByte t bytes ≠ .error .unknownOpcode := by
  cases bytes <;> simp [takeByte]

theorem takeHalf_ne_unknownOpcode (t : Nat) (bytes : List Byte) : takeHalf t bytes ≠ .error .unknownOpcode := by
  unfold takeHalf
  split <;> simp

theorem takeRm_ne_unknownOpcode (m : Byte) (bytes : List Byte) : takeRm m bytes ≠ .error .unknownOpcode := by
  rw [takeRm_eq_ite]
  split_ifs
  · exact mt map_eq_error.1 (takeHalf_ne_unknownOpcode _ _)
  · nofun
  · exact mt map_eq_error.1 (takeByte_ne_unknownOpcode _ _)
  · exact mt map_eq_error.1 (takeHalf_ne_unknownOpcode _ _)
  · nofun

theorem takeImm_ne_unknownOpcode (t : Nat) (w s : Bool) (bytes : List Byte) :
    takeImm t w s bytes ≠ .error .unknownOpcode := by
  rw [takeImm_eq_ite]
  split_ifs
  · exact mt map_eq_error.1 (takeByte_ne_unknownOpcode _ _)
  · exact mt map_eq_error.1 (takeHalf_ne_unknownOpcode _ _)

theorem takeRr_ne_unknownOpcode (bytes : List Byte) : takeRr bytes ≠ .error .unknownOpcode := by
  intro h
  unfold takeRr at h
  split at h
  · next hbyte => cases h; exact takeByte_ne_unknownOpcode _ _ hbyte
  · split at h
    · next hrm => cases h; exact takeRm_ne_unknownOpcode _ _ hrm
    · cases h

/-- The formats with an opcode extension are those of the layout IM. -/
theorem row_of_unknownOpcode {row : Row} {b : Byte} {rest : List Byte}
    (h : decodeRow row b rest = .error .unknownOpcode) : row = .movImmRm ∨ row = .addImmRm := by
  rw [decodeRow_eq_map] at h
  cases row with
  | movRmReg | addRmReg => exact absurd (map_eq_error.1 h) (takeRr_ne_unknownOpcode _)
  | movImmReg => exact absurd (map_eq_error.1 h) (takeImm_ne_unknownOpcode _ _ _ _)
  | movImmRm => exact .inl rfl
  | addImmRm => exact .inr rfl

/-- Every format has a second byte: the row's first byte alone is a truncation. -/
theorem decodeRow_nil (row : Row) : decodeRow row (rowEntry row).opcode [] = .error (.truncated 2) := by
  cases row <;> rfl

theorem rowOfByte_of_unknownOpcode {b : Byte} {rest : List Byte} (h : Decode.decode (b :: rest) = .error .unknownOpcode) :
    rowOfByte b = none ∨ rowOfByte b = some .movImmRm ∨ rowOfByte b = some .addImmRm := by
  simp only [Decode.decode, takeByte] at h
  rcases hrow : rowOfByte b with _ | row
  · exact .inl rfl
  · rw [hrow] at h
    exact .inr ((row_of_unknownOpcode h).imp (congrArg some) (congrArg some))

/-- Settles O9: the two formats raise UnknownOpcode for their own first byte and a ModRM byte with REG = 001. -/
theorem errorsOfEachFormat : Obligations.ErrorsOfEachFormat := by
  refine ⟨fun _ _ _ h => row_of_unknownOpcode h, fun row hrow => ⟨(rowEntry row).opcode, [0xc8#8], ?_⟩,
    fun row => ⟨_, _, _, decodeRow_nil row⟩, fun _ _ h => rowOfByte_of_unknownOpcode h⟩
  obtain rfl | rfl := hrow
  · rfl
  · rfl

end Sys2Proof.Proofs
end

section
/-! PROOFS. The check of a ROM image (70_reset_and_hazards R263, R264): the checks WF1 to WF8 of one entry, the first
failing entry of an image, and that overlaps are no error. -/

namespace Sys2Proof.Proofs

open Machine

/-! ### The checks of one entry, as R263 words them -/

/-- The form of WF1 to WF4 and WF6: a flag that asks for another. -/
theorem not_or_eq_true_iff {a b : Bool} : (!a || b) = true ↔ (a = true → b = true) := by
  cases a <;> simp

section Entry
variable {F : FormatEntry}

theorem hasRole_iff {r : Role} : hasRole F r = true ↔ F.roles.1 = r ∨ F.roles.2 = r := by
  simp [hasRole]

theorem checkWF1_iff : checkWF1 F = true ↔ (F.roles.1 = .reg ∨ F.roles.2 = .reg → F.reg ≠ none) := by
  rw [checkWF1, not_or_eq_true_iff, hasRole_iff, Option.isSome_iff_ne_none]

theorem checkWF2_iff : checkWF2 F = true ↔ (F.roles.1 = .rm ∨ F.roles.2 = .rm → F.modrm = true) := by
  rw [checkWF2, not_or_eq_true_iff, hasRole_iff]

theorem checkWF3_iff : checkWF3 F = true ↔ (F.roles.1 = .imm ∨ F.roles.2 = .imm → F.imm = true) := by
  rw [checkWF3, not_or_eq_true_iff, hasRole_iff]

theorem checkWF4_iff : checkWF4 F = true ↔
    (F.imm = true → F.roles.1 = .imm ∨ F.roles.2 = .imm) ∧ (F.reg ≠ none → F.roles.1 = .reg ∨ F.roles.2 = .reg) := by
  rw [checkWF4, Bool.and_eq_true, not_or_eq_true_iff, not_or_eq_true_iff, hasRole_iff, hasRole_iff,
    Option.isSome_iff_ne_none]

theorem checkWF5_iff : checkWF5 F = true ↔ F.opcode &&& ~~~F.mask = 0#8 := beq_iff_eq

theorem checkWF6_iff : checkWF6 F = true ↔
    (F.reg = some .modrm ∨ F.ext ≠ none → F.modrm = true) ∧ ∀ sh, F.reg = some (.byte0 sh) → sh ≤ 5 := by
  rw [checkWF6, Bool.and_eq_true, not_or_eq_true_iff, Bool.or_eq_true, beq_iff_eq, Option.isSome_iff_ne_none]
  refine and_congr_right fun _ => ?_
  rcases F.reg with _ | _ | shift <;> simp

theorem checkWF7_iff : checkWF7 F = true ↔ ¬(F.ext ≠ none ∧ F.reg = some .modrm) := by
  rw [checkWF7, Bool.not_eq_true', ← Bool.not_eq_true, Bool.and_eq_true, Option.isSome_iff_ne_none, beq_iff_eq]

theorem positionOk_iff {pos : Option Nat} : positionOk pos = true ↔ ∀ p, pos = some p → p ≤ 7 := by
  simp [positionOk, Option.all_eq_true]

theorem checkWF8_iff {mnemonics : List Mnemonic} : checkWF8 mnemonics F = true ↔
    F.roles.1 ≠ F.roles.2 ∧ (∀ p, F.d = some p ∨ F.w = some p ∨ F.s = some p → p ≤ 7) ∧ F.mnem ∈ mnemonics := by
  simp only [checkWF8, Bool.and_eq_true, bne_iff_ne, positionOk_iff, List.contains_iff_mem, or_imp, forall_and, and_assoc]

end Entry

/-- The two groups of checks, WF1 to WF4 first, each with its code. -/
theorem checkEntry_eq_ite (mnemonics : List Mnemonic) (F : FormatEntry) :
    checkEntry mnemonics F =
      if checkWF1 F = true ∧ checkWF2 F = true ∧ checkWF3 F = true ∧ checkWF4 F = true then
        if checkWF5 F = true ∧ checkWF6 F = true ∧ checkWF7 F = true ∧ checkWF8 mnemonics F = true then none
        else some .invalidFormatEntry
      else some .invalidOperandRole := by
  simp only [checkEntry, Bool.and_eq_true, and_assoc]

theorem checkEntry_eq_invalidOperandRole {mnemonics : List Mnemonic} {F : FormatEntry} :
    checkEntry mnemonics F = some .invalidOperandRole ↔
      ¬(checkWF1 F = true ∧ checkWF2 F = true ∧ checkWF3 F = true ∧ checkWF4 F = true) := by
  rw [checkEntry_eq_ite]
  split_ifs with hroles
  · exact iff_of_false nofun (not_not.2 hroles)
  · exact iff_of_false nofun (not_not.2 hroles)
  · exact iff_of_true rfl hroles

theorem checkEntry_eq_invalidFormatEntry {mnemonics : List Mnemonic} {F : FormatEntry} :
    checkEntry mnemonics F = some .invalidFormatEntry ↔
      (checkWF1 F = true ∧ checkWF2 F = true ∧ checkWF3 F = true ∧ checkWF4 F = true) ∧
        ¬(checkWF5 F = true ∧ checkWF6 F = true ∧ checkWF7 F = true ∧ checkWF8 mnemonics F = true) := by
  rw [checkEntry_eq_ite]
  split_ifs with hroles hfields
  · exact iff_of_false nofun fun h => h.2 hfields
  · exact iff_of_true rfl ⟨hroles, hfields⟩
  · exact iff_of_false nofun fun h => hroles h.1

/-! ### The check of an image -/

theorem checkImageFrom_cons_of_pass {mnemonics : List Mnemonic} {F : FormatEntry} (h : checkEntry mnemonics F = none)
    (k : Nat) (image : List FormatEntry) :
    checkImageFrom mnemonics k (F :: image) = checkImageFrom mnemonics (k + 1) image := by
  rw [checkImageFrom, h]

theorem checkImageFrom_cons_of_fail {mnemonics : List Mnemonic} {F : FormatEntry} {code : InitErrorCode}
    (h : checkEntry mnemonics F = some code) (k : Nat) (image : List FormatEntry) :
    checkImageFrom mnemonics k (F :: image) = some { code := code, index := k } := by
  rw [checkImageFrom, h]

theorem checkImageFrom_index_le {mnemonics : List Mnemonic} {image : List FormatEntry} {k : Nat} {e : InitError}
    (h : checkImageFrom mnemonics k image = some e) : k ≤ e.index := by
  induction image generalizing k with
  | nil => cases h
  | cons F image ih =>
    rcases hF : checkEntry mnemonics F with _ | code
    · rw [checkImageFrom_cons_of_pass hF] at h
      exact Nat.le_of_succ_le (ih h)
    · rw [checkImageFrom_cons_of_fail hF] at h
      cases h; exact le_rfl

/-- R263, for a list whose first entry has the index `k`: the error is that of the first entry that fails. -/
theorem checkImageFrom_eq_some {mnemonics : List Mnemonic} {image : List FormatEntry} {k j : Nat} {code : InitErrorCode} :
    checkImageFrom mnemonics k image = some { code := code, index := k + j } ↔
      ∃ F, image[j]? = some F ∧ checkEntry mnemonics F = some code ∧
        ∀ i G, i < j → image[i]? = some G → checkEntry mnemonics G = none := by
  induction image generalizing k j with
  | nil => simp [checkImageFrom]
  | cons H image ih =>
    rcases hH : checkEntry mnemonics H with _ | found <;> rcases j with _ | j
    · rw [checkImageFrom_cons_of_pass hH]
      constructor
      · intro h; exact absurd (checkImageFrom_index_le h) (Nat.not_succ_le_self k)
      · rintro ⟨F, ⟨⟩, hfails, -⟩; cases hH.symm.trans hfails
    · rw [checkImageFrom_cons_of_pass hH, show k + (j + 1) = k + 1 + j by omega, ih]
      simp only [forall_before_succ_cons, hH, true_and, List.getElem?_cons_succ]
    · rw [checkImageFrom_cons_of_fail hH]
      simp [hH]
    · rw [checkImageFrom_cons_of_fail hH]
      simp only [forall_before_succ_cons, hH]
      simp

theorem checkImage_eq_some {mnemonics : List Mnemonic} {image : List FormatEntry} {e : InitError} :
    checkImage mnemonics image = some e ↔
      ∃ F, image[e.index]? = some F ∧ checkEntry mnemonics F = some e.code ∧
        ∀ j G, j < e.index → image[j]? = some G → checkEntry mnemonics G = none := by
  rw [← checkImageFrom_eq_some (k := 0), Nat.zero_add]; rfl

theorem checkImage_eq_none {mnemonics : List Mnemonic} {image : List FormatEntry} :
    checkImage mnemonics image = none ↔ ∀ F ∈ image, checkEntry mnemonics F = none := by
  refine ⟨fun h F => checkEntry_of_checkImage h, fun h => Option.eq_none_iff_forall_ne_some.2 fun e he => ?_⟩
  obtain ⟨F, hF, hfails, -⟩ := checkImage_eq_some.1 he
  rw [h F (List.mem_of_getElem? hF)] at hfails
  cases hfails

/-- Settles O15: each check is its rule, and the image's error is found by induction over the entries. -/
theorem imageCheckFindsTheFirstFailure : Obligations.ImageCheckFindsTheFirstFailure := by
  refine ⟨fun mnemonics F => ?_, fun _ _ _ => checkImage_eq_some, rfl, rfl⟩
  dsimp only
  rw [checkEntry_eq_invalidOperandRole, checkEntry_eq_invalidFormatEntry, checkWF1_iff, checkWF2_iff, checkWF3_iff,
    checkWF4_iff, checkWF5_iff, checkWF6_iff, checkWF7_iff, checkWF8_iff]
  exact ⟨Iff.rfl, Iff.rfl⟩

/-! ### Overlapping entries -/

/-- A matching entry has the match at its own index or lower. -/
theorem exists_matchEntry_le {b : Byte} {F : FormatEntry} (hF : b &&& F.mask = F.opcode) {image : List FormatEntry}
    {k j : Nat} (hj : image[j]? = some F) : ∃ i H, matchEntry k image b = some (k + i, H) ∧ i ≤ j := by
  induction image generalizing k j with
  | nil => cases hj
  | cons G image ih =>
    by_cases hG : b &&& G.mask = G.opcode
    · exact ⟨0, G, matchEntry_cons_of_matches hG k image, Nat.zero_le j⟩
    rw [matchEntry_cons_of_not_matches hG]
    rcases j with _ | j
    · cases hj; exact absurd hF hG
    · obtain ⟨i, H, hmatch, hi⟩ := ih (k := k + 1) hj
      exact ⟨i + 1, H, by rw [hmatch, Nat.add_right_comm, Nat.add_assoc], Nat.succ_le_succ hi⟩

/-- Settles O14: the check looks at single entries, and R81's match stops at the lower of two. -/
theorem overlapIsNoError : Obligations.OverlapIsNoError := by
  refine ⟨fun _ _ => checkImage_eq_none, fun image b j k F G _ hj _ hF _ => ⟨?_, fun hbelow => ?_⟩,
    defaultImageOrderDoesNotMatter.1⟩
  · obtain ⟨i, H, hmatch, hi⟩ := exists_matchEntry_le hF (k := 0) hj
    obtain ⟨hH, hHb, -⟩ := matchEntry_eq_some.1 hmatch
    exact ⟨i, H, Nat.zero_add i ▸ hmatch, hH, hHb, hi⟩
  · exact (matchTakesTheLowestIndex.1 image b j F).2 ⟨hj, hF, hbelow⟩

end Sys2Proof.Proofs
end

section
/-! PROOFS. Initialisation happens once (70_reset_and_hazards R261, R262, R265, 10_state R23): what presenting an image
does, and that afterwards no step writes a ROM, the port's report or `ready`. -/

namespace Sys2Proof.Proofs

open Machine Laws

theorem initialise_of_failed {s : State} {image : List FormatEntry} {e : InitError} (hport : s.initPort = .pending)
    (hcheck : checkImage s.params.mnemonics image = some e) :
    initialise s image = .next { s with initPort := .failed e, inputs := s.inputs.tail } := by
  have hne : image ≠ [] := by rintro rfl; cases hcheck
  rw [initialise, if_pos hport, if_neg hne, hcheck]

theorem initialise_again {s : State} (hport : s.initPort ≠ .pending) (image : List FormatEntry) :
    initialise s image = .fault .secondInitialisation := if_neg hport

/-- What a step keeps once the port has reported. -/
structure SameInit (s t : State) : Prop where
  fmtRom   : t.fmtRom = s.fmtRom
  regRom   : t.regRom = s.regRom
  eaRom    : t.eaRom = s.eaRom
  initPort : t.initPort = s.initPort
  ready    : t.ready = s.ready

theorem sameInit_deliver (s : State) (r : Response) (c : Client) : SameInit s (s.deliver r c) :=
  ⟨deliver_fmtRom s r c, deliver_regRom s r c, deliver_eaRom s r c, deliver_initPort s r c, deliver_ready s r c⟩

/-- A change of streams, turn and queue. -/
theorem sameInit_of_streams (s : State) (streams : List StreamCtx) (turn : Nat) (inputs : List HostInput) :
    SameInit s { s with streams := streams, turn := turn, inputs := inputs } :=
  ⟨rfl, rfl, rfl, rfl, rfl⟩

/-- Of the cases of a step, only the two initialisations write what the port's report stands for. -/
theorem step_sameInit {s t : State} (hport : s.initPort ≠ .pending) (h : step s = .next t) : SameInit s t := by
  rcases step_cases h with ⟨-, rfl⟩ | ⟨_, _, -, -, -, -, rfl⟩ | ⟨_, _, -, -, -, -, -, rfl⟩ | ⟨_, _, -, rfl⟩ |
    ⟨_, _, _, -, -, rfl⟩ | ⟨_, _, -, hpending, -, -, -⟩ | ⟨_, _, _, -, hpending, -, -⟩ | ⟨_, _, -, -, -, rfl⟩ |
    ⟨_, _, _, -, -, -, -, rfl⟩ | ⟨_, _, _, -, -, rfl⟩ | ⟨_, _, _, _, _, -, -, -, -, rfl⟩
  case inl => exact ⟨rfl, rfl, rfl, rfl, rfl⟩
  · exact sameInit_of_streams ..
  · exact sameInit_of_streams ..
  · exact sameInit_deliver ..
  · exact sameInit_deliver ..
  · exact absurd hpending hport
  · exact absurd hpending hport
  · exact sameInit_of_streams ..
  · exact sameInit_of_streams ..
  · exact sameInit_of_streams ..
  · exact sameInit_of_streams ..

/-- Every meaning is a response, which only a ready block gives. -/
theorem ready_of_exec {i : Instr} {s t : State} (h : exec i s = .next t) : s.ready = true := by
  rw [exec_eq_respond] at h
  exact (respond_next h).1

/-- Settles O19: a second image meets a port that is not pending, and the other steps keep the report. -/
theorem initialisationHappensOnce : Obligations.InitialisationHappensOnce := by
  refine ⟨fun s image rest hport hin => ?_, fun s t hport h => ?_⟩
  · rw [step_of_initialise hin, initialise_again hport]
  · obtain ⟨hfmt, hreg, hea, hinit, hready⟩ := step_sameInit hport h
    exact ⟨hfmt, hreg, hea, hinit, hready⟩

/-- Settles O18: the report stays because no step after it initialises, and a response wants a ready block. -/
theorem failedCheckLeavesTheBlockUnready : Obligations.FailedCheckLeavesTheBlockUnready := by
  refine ⟨fun s image rest e hport hin hcheck => ?_, fun s t e hfailed hunready h => ?_, fun s i t hunready h => ?_⟩
  · rw [step_of_initialise hin, initialise_of_failed hport hcheck, hin, List.tail_cons]
  · have hsame := step_sameInit (by rw [hfailed]; nofun) h
    exact ⟨hsame.initPort.trans hfailed, hsame.ready.trans hunready⟩
  · cases hunready.symm.trans (ready_of_exec h)

/-- Settles O16: the port is pending and the image passes, so the step copies it. -/
theorem passedCheckLoadsTheImage : Obligations.PassedCheckLoadsTheImage := by
  intro s image rest hport hin hne hcheck
  rw [step_of_initialise hin, initialise_of_checked hport hne hcheck, hin, List.tail_cons]

end Sys2Proof.Proofs
end
